-- ==== Sys2Proof/Config.lean ====
section
/-! DEFINITION. What an implementation fixes: the parameters of 00_scope.md R6, which every definition of the model
takes as an argument, the constraints of R7, and the free values, which stand for the `any(n)` of the spec. A free
value is a constant without a body, so that nothing can be proved of the value it gives. -/

namespace Sys2Proof.Config

/-- The three independent parameters of 00_scope.md R6; every other one is computed from them. -/
structure Params where
  /-- `XLEN`: width of the register data path -/
  xlen : Nat
  /-- `DIMW`: width of WIDTH and HEIGHT -/
  dimw : Nat
  /-- `LENW`: width of BLEN and of a BM address -/
  lenw : Nat
  deriving DecidableEq, Repr

/-- The default column of R6, "the value this hardware takes": where a definition is given no parameters, it is
at these. -/
@[reducible] def params : Params := { xlen := 32, dimw := 8, lenw := 12 }

/-- `DMAX`: the largest width or height that can be declared. -/
def Params.dmax (p : Params) : Nat := 2 ^ (p.dimw - 1) - 1

/-- `GDIM`: the number of rows and of columns of GM. -/
def Params.gdim (p : Params) : Nat := 2 ^ (p.dimw - 1)

/-- `GAW`: the address width of GM. -/
def Params.gaw (p : Params) : Nat := 2 * (p.dimw - 1)

/-- `NCELL`: the number of cells of GM, whose keys are 0 to `NCELL - 1`. -/
def Params.ncell (p : Params) : Nat := 2 ^ p.gaw

/-- `NMAX`: the largest number of cells a command can meet. -/
def Params.nmax (p : Params) : Nat := p.dmax * p.dmax

/-- `NBYTE`: the number of bytes of BM, whose keys are 0 to `NBYTE - 1`. -/
def Params.nbyte (p : Params) : Nat := 2 ^ p.lenw

/-- `LMAX`: the largest packed length PACK can produce. -/
def Params.lmax (p : Params) : Nat := (p.nmax + 7) / 8

/-- `AW`: the width of the host request address. -/
def Params.aw (p : Params) : Nat := max p.gaw (max p.lenw 3)

/-- A host request address is a number below `2 ^ AW`. -/
def Params.addrs (p : Params) : Nat := 2 ^ p.aw

/-- The constraints of 00_scope.md R7. -/
def Params.valid (p : Params) : Bool :=
  decide (2 ≤ p.dimw) && decide (1 ≤ p.lenw) && decide (max p.dimw (max p.lenw 4) ≤ p.xlen) &&
    decide (p.lmax ≤ 2 ^ p.lenw - 1)

/-- FREE VALUE. The `any(XLEN)` a read gives while `BUSY = 1` (40_host_access.md R98): one value for each
draw, so that each read is a fresh one. Log 5. -/
opaque busyRead (xlen draw : Nat) : BitVec xlen

/-- FREE VALUE. The `any(1)` that reset number `epoch` put into the GM cell at `key` (70_reset_and_hazards.md
R180, R182). Log 6. -/
opaque gmDraw (epoch key : Nat) : BitVec 1

/-- FREE VALUE. The `any(8)` that reset number `epoch` put into byte `key` of BM (R180, R182). Log 6. -/
opaque bmDraw (epoch key : Nat) : BitVec 8

end Sys2Proof.Config
end

