-- ==== Sys2Proof/Word.lean ====
section
/-! DEFINITION. The bit vectors of the block: what the spec gives a width in bits (00_scope.md R6, R8). A width
that R6 makes a parameter is taken from the parameters, by default those of this hardware. -/

namespace Sys2Proof

/-- One cell of the grid memory, 0 or 1 (10_state.md R29, R36). -/
abbrev Bit := BitVec 1

/-- One byte of the byte memory (10_state.md R30). -/
abbrev Byte := BitVec 8

/-- The register data path, `XLEN` bits: `wdata`, `rdata`, a command word (00_scope.md R6). -/
abbrev Word (p : Config.Params := Config.params) := BitVec p.xlen

/-- `WIDTH` and `HEIGHT`, `DIMW` bits, two's complement (10_state.md R21, R22). -/
abbrev Dim (p : Config.Params := Config.params) := BitVec p.dimw

/-- `BLEN`, `LENW` bits, unsigned (10_state.md R23). -/
abbrev Len (p : Config.Params := Config.params) := BitVec p.lenw

/-- The address field of a host request, `AW` bits (30_encoding.md R74). -/
abbrev Addr (p : Config.Params := Config.params) := BitVec p.aw

/-- A whole host request word `REQ`, by default 49 bits (30_encoding.md R70, R74). -/
abbrev Req (p : Config.Params := Config.params) := BitVec (3 + p.aw + p.xlen)

end Sys2Proof
end

