-- ==== Sys2Proof/Syntax.lean ====
section
/-! DEFINITION. The ten rows of spec/opcode_table.json: eight host requests (30_encoding.md R75) and the two
commands (R76). Register numbers, rows, columns, byte indices and data words are numbers, as in the host-script
notation of R82, so that the syntax is one for all parameters (00_scope.md R6); `Instr.wf` says which fit. The
`wdata` of a read is ignored by the spec (R74) and is no operand. -/

namespace Sys2Proof

/-- One constructor for each row of spec/opcode_table.json. -/
inductive Instr where
  /-- RDREG: read register number `n` (40_host_access.md R90). -/
  | rdreg (n : Nat)
  /-- WRREG: write the word `v` to register number `n`; number 0 starts a command (R91, R92). -/
  | wrreg (n v : Nat)
  /-- RDG: read the grid cell of row `r`, column `c` (R93). -/
  | rdg (r c : Nat)
  /-- WRG: write bit 0 of the word `v` to the grid cell of row `r`, column `c` (R94). -/
  | wrg (r c v : Nat)
  /-- RDB: read byte `k` (R95). -/
  | rdb (k : Nat)
  /-- WRB: write bits 7 to 0 of the word `v` to byte `k` (R96). -/
  | wrb (k v : Nat)
  /-- RDRSV: read of the reserved space (R97). -/
  | rdrsv (a : Nat)
  /-- WRRSV: write to the reserved space (R97). -/
  | wrrsv (a v : Nat)
  /-- PACK: the EXEC step of a pending PACK (41_pack.md R114); its start is `wrreg 0` (R92). -/
  | pack
  /-- UNPACK: the EXEC step of a pending UNPACK (42_unpack.md R129); its start is `wrreg 0` (R92). -/
  | unpack
  deriving DecidableEq, Repr

end Sys2Proof
end

