-- ==== Sys2Proof/WellFormed.lean ====
section
/-! DEFINITION. Which instructions have an encoding: the numbers fit their fields of the request word
(30_encoding.md R74, R79). Every bit pattern of a data word is legal (R76, R80). Log 15. -/

namespace Sys2Proof

/-- The operand numbers fit their fields: a register number, byte index or reserved address fits `addr`
(`AW` bits, R74), the column of a GM address its `DIMW - 1` bits and the row the bits above them (R79), a data
word `wdata` (`XLEN` bits, R74). With the default parameters rows and columns are 0 to 127. -/
def Instr.wf (i : Instr) (p : Config.Params := Config.params) : Bool :=
  match i with
  | .rdreg n => decide (n < p.addrs)
  | .wrreg n v => decide (n < p.addrs) && decide (v < 2 ^ p.xlen)
  | .rdg r c => decide (p.gdim * r + c < p.addrs) && decide (c < p.gdim)
  | .wrg r c v => decide (p.gdim * r + c < p.addrs) && decide (c < p.gdim) && decide (v < 2 ^ p.xlen)
  | .rdb k => decide (k < p.addrs)
  | .wrb k v => decide (k < p.addrs) && decide (v < 2 ^ p.xlen)
  | .rdrsv a => decide (a < p.addrs)
  | .wrrsv a v => decide (a < p.addrs) && decide (v < 2 ^ p.xlen)
  | .pack => true
  | .unpack => true

end Sys2Proof
end

