-- ==== Sys2Proof/Decode.lean ====
section
/-! DEFINITION. From bits to an instruction and back (30_encoding.md R74 to R79, R83). Decoding has two
levels: the three bits `sel` of a request word select one of eight transactions, all defined (R75); bit 0 of
a command word selects PACK or UNPACK (R76). -/

namespace Sys2Proof

variable {p : Config.Params}

/-- The request word `{sel, addr, wdata}` (30_encoding.md R74). -/
def reqWord (sel : BitVec 3) (addr : Addr p) (wdata : Word p) : Req p := sel ++ addr ++ wdata

/-- The GM address `{r, c}`, whose value is `GDIM*r + c`, `128*r + c` by default (30_encoding.md R79). -/
def gmAddr (r c : Nat) (p : Config.Params := Config.params) : Addr p := BitVec.ofNat p.aw (p.gdim * r + c)

/-- `sel`, the top three bits of a request word, bits 48 to 46 by default (R74). -/
def reqSel (req : Req p) : BitVec 3 := req.extractLsb' (p.aw + p.xlen) 3

/-- `addr`, bits 45 to 32 of a request word by default (R74). -/
def reqAddr (req : Req p) : Addr p := req.extractLsb' p.xlen p.aw

/-- `wdata`, bits 31 to 0 of a request word by default (R74). -/
def reqData (req : Req p) : Word p := req.extractLsb' 0 p.xlen

/-- The row of a GM address: the bits above the column, 13 to 7 by default (R79). Where `AW > GAW` an address with
a bit above `GAW` set gives a row from `GDIM` on, which is out of range (20_memory.md R52). -/
def addrRow (a : Addr p) : Nat := a.toNat / p.gdim

/-- The column of a GM address: its low `DIMW - 1` bits, 6 to 0 by default (R79). -/
def addrCol (a : Addr p) : Nat := a.toNat % p.gdim

/-- Level 1: the transaction a request word stands for, by the table of R75; the data of a read
is ignored (R74; log 11). -/
def decodeReq (req : Req p) : Instr :=
  let a := reqAddr req
  let v := reqData req
  match (reqSel req).getLsbD 2, (reqSel req).getLsbD 1, (reqSel req).getLsbD 0 with
  | false, false, false => .rdreg a.toNat
  | false, false, true => .wrreg a.toNat v.toNat
  | false, true, false => .rdg (addrRow a) (addrCol a)
  | false, true, true => .wrg (addrRow a) (addrCol a) v.toNat
  | true, false, false => .rdb a.toNat
  | true, false, true => .wrb a.toNat v.toNat
  | true, true, false => .rdrsv a.toNat
  | true, true, true => .wrrsv a.toNat v.toNat

/-- Level 2: the command a command word stands for: bit 0, every other bit ignored (R76; log 11). -/
def decodeCmd (word : Word p) : Instr :=
  match word.getLsbD 0 with
  | false => .pack
  | true => .unpack

/-- An encoded instruction, in one of the two formats the opcode table has (R83). -/
inductive Encoded (p : Config.Params := Config.params) where
  /-- format HREQ: a host request word -/
  | hreq (req : Req p)
  /-- format CMD: a command word -/
  | cmd (word : Word p)
  deriving DecidableEq, Repr

/-- The instruction an encoded word stands for. -/
def decode : Encoded p → Instr
  | .hreq req => decodeReq req
  | .cmd word => decodeCmd word

/-- Why bits are no encoded instruction. Within a format every word is legal (R75, R76, R80). -/
inductive DecodeError where
  /-- more than 49 bits: no host request word (R74) -/
  | requestTooWide
  /-- more than 32 bits in the CMD format: no command word (R76) -/
  | commandTooWide
  deriving DecidableEq, Repr

/-- The encoded word in `w`, where the opcode table gives the row `nbits` bits in whole bytes: a CMD row has
32 bits, an HREQ row 49 (R83). The table is that of the default parameters. Log 10. -/
def encodedOfNat (nbits w : Nat) : Except DecodeError Encoded :=
  if nbits ≤ 32 then
    if w < 2 ^ 32 then .ok (.cmd (BitVec.ofNat 32 w)) else .error .commandTooWide
  else if w < 2 ^ 49 then .ok (.hreq (BitVec.ofNat 49 w)) else .error .requestTooWide

/-- The instruction read from bits numbered as spec/opcode_table.json numbers them. -/
def decodeTableWord (nbits w : Nat) : Option Instr :=
  match encodedOfNat nbits w with
  | .ok e => some (decode e)
  | .error _ => none

/-- A host request word of its three fields as numbers. -/
def encodeReq (sel : BitVec 3) (addr : Addr p) (v : Nat) : Encoded p :=
  .hreq (reqWord (p := p) sel addr (BitVec.ofNat p.xlen v))

/-- The encoding of an instruction: the tables of R74 to R76 read the other way; a read is written with
`wdata` 0 (95_test_vectors.md L3), a command with its reserved bits 0 (R76). Log 11. -/
def encode (i : Instr) (p : Config.Params := Config.params) : Encoded p :=
  match i with
  | .rdreg n => encodeReq 0b000#3 (BitVec.ofNat p.aw n) 0
  | .wrreg n v => encodeReq 0b001#3 (BitVec.ofNat p.aw n) v
  | .rdg r c => encodeReq 0b010#3 (gmAddr r c p) 0
  | .wrg r c v => encodeReq 0b011#3 (gmAddr r c p) v
  | .rdb k => encodeReq 0b100#3 (BitVec.ofNat p.aw k) 0
  | .wrb k v => encodeReq 0b101#3 (BitVec.ofNat p.aw k) v
  | .rdrsv a => encodeReq 0b110#3 (BitVec.ofNat p.aw a) 0
  | .wrrsv a v => encodeReq 0b111#3 (BitVec.ofNat p.aw a) v
  | .pack => .cmd 0
  | .unpack => .cmd 1

/-- The `match` column of an instruction's row in spec/opcode_table.json. -/
def Instr.rowMatch : Instr → Nat
  | .rdreg _ => 0x0000000000000
  | .wrreg _ _ => 0x0400000000000
  | .rdg _ _ => 0x0800000000000
  | .wrg _ _ _ => 0x0C00000000000
  | .rdb _ => 0x1000000000000
  | .wrb _ _ => 0x1400000000000
  | .rdrsv _ => 0x1800000000000
  | .wrrsv _ _ => 0x1C00000000000
  | .pack => 0x00000000
  | .unpack => 0x00000001

/-- The `mask` column of an instruction's row in spec/opcode_table.json. -/
def Instr.rowMask : Instr → Nat
  | .rdreg _ => 0x1C00000000000
  | .wrreg _ _ => 0x1C00000000000
  | .rdg _ _ => 0x1C00000000000
  | .wrg _ _ _ => 0x1C00000000000
  | .rdb _ => 0x1C00000000000
  | .wrb _ _ => 0x1C00000000000
  | .rdrsv _ => 0x1C00000000000
  | .wrrsv _ _ => 0x1C00000000000
  | .pack => 0x00000001
  | .unpack => 0x00000001

/-- The row of spec/opcode_table.json an encoded word fits: `word &&& mask = match`. -/
def Encoded.fits (rowMatch rowMask : Nat) : Encoded → Bool
  | .hreq req => req.toNat &&& rowMask == rowMatch
  | .cmd word => word.toNat &&& rowMask == rowMatch

end Sys2Proof
end

