-- ==== Sys2Proof/Machine/State.lean ====
section
/-! DEFINITION. The state of the machine: the eight items of 10_state.md R20, and the model's own fields for
what stands outside the block (the requests still to come, the response of the last one) and for the free
values. All of it is plain data. -/

namespace Sys2Proof.Machine

/-- The two commands; the values of `OP` (10_state.md R27: 0 PACK, 1 UNPACK). -/
inductive Command where
  | pack
  | unpack
  deriving DecidableEq, Repr

/-- The values of `ERR` (30_encoding.md R81, codes 0 to 3). -/
inductive ErrorCode where
  /-- 0: no error -/
  | none
  /-- 1: InsufficientDataError (60_exceptions.md R161) -/
  | insufficientData
  /-- 2: DimensionMismatchError (R162) -/
  | dimensionMismatch
  /-- 3: ImageLoadError, never raised by the block (R163) -/
  | imageLoad
  deriving DecidableEq, Repr

/-- What the three agents can do next (00_scope.md R5). -/
inductive Event (p : Config.Params := Config.params) where
  /-- HOST issues one request (30_encoding.md R74) -/
  | request (req : Req p)
  /-- BPU's turn: EXEC, where it is enabled (00_scope.md R5) -/
  | exec
  /-- the reset event (70_reset_and_hazards.md R180) -/
  | reset
  deriving DecidableEq, Repr

/-- The reasons a step stops with a fault: none. "for every state with BUSY = 1 the EXEC step is defined",
and host requests never fail (60_exceptions.md R164); an access to a place that does not exist reads 0 or is
ignored (20_memory.md R52). A failing command is a next state (R166). Log 12. -/
inductive Fault where
  deriving DecidableEq, Repr

/-- The reasons a step refuses. -/
inductive Refusal where
  /-- Raised by `exec`'s arm of an instruction that has no meaning yet; no arm does. Safe: the model stops
  where the hardware goes on. -/
  | notModelled (mnemonic : String)
  deriving DecidableEq, Repr

/-- The block's own state: the table of 10_state.md R20, "and nothing else". A memory is a list of
(key, cell) pairs, keys strictly rising, that holds the cells written since the last reset; what an unlisted
cell reads as is `State.gmRead` and `State.bmRead` (Machine/Ops.lean). `epoch` is the model's own: it says which
reset's draw the unlisted cells show (log 6). -/
structure Block (p : Config.Params := Config.params) where
  /-- WIDTH, register 2 (R21) -/
  width : Dim p
  /-- HEIGHT, register 3 (R22) -/
  height : Dim p
  /-- BLEN, register 4 (R23) -/
  blen : Len p
  /-- STATUS.BUSY (R26) -/
  busy : Bool
  /-- STATUS.OP (R27) -/
  op : Command
  /-- STATUS.ERR (R28) -/
  err : ErrorCode
  /-- GM, cell (r, c) at key `GDIM*r + c`, `128*r + c` by default (R29, R38) -/
  gm : List (Nat × Bit)
  /-- BM, byte k at key k (R30, R39) -/
  bm : List Host.Cell
  /-- the number of the reset whose draw the unlisted cells of GM and BM show (model's own) -/
  epoch : Nat
  deriving DecidableEq, Repr

/-- The whole state: the block, and the model's own fields for the host port and the free values. Its widths are
those of the parameters `p` (00_scope.md R6); `State` alone is the state of this hardware. -/
structure State (p : Config.Params := Config.params) extends Block p where
  /-- the response of the latest host request, none when it was a write (30_encoding.md R74) -/
  rdata : Option (Word p)
  /-- what the agents do next, first first (00_scope.md R5, 70_reset_and_hazards.md R192) -/
  inputs : List (Event p)
  /-- how many `any(XLEN)` read values have been drawn (40_host_access.md R98) -/
  draws : Nat
  deriving DecidableEq, Repr

/-- The machine right after reset (10_state.md R35): registers and STATUS fields 0, no cell of GM or BM
written. The four fields of the model's own start at 0, none and empty (logs 2, 5, 6, 8). -/
def State.resetAt (p : Config.Params) : State p where
  width := 0
  height := 0
  blen := 0
  busy := false
  op := .pack
  err := .none
  gm := []
  bm := []
  epoch := 0
  rdata := none
  inputs := []
  draws := 0

/-- This hardware right after reset: the default parameters of 00_scope.md R6. -/
def State.reset : State := State.resetAt Config.params

end Sys2Proof.Machine
end

