-- ==== Sys2Proof/Machine/Operands.lean ====
section
/-! DEFINITION. The quantities a command computes from its operand registers, exact integers (00_scope.md
R8, R11), and the forms a data word takes on its way into and out of a register or a cell (30_encoding.md
R78; 40_host_access.md R93 to R96). -/

namespace Sys2Proof.Machine

variable {p : Config.Params}

/-- `ceil8(N)`, the least `L` with `8*L >= N` (00_scope.md R8). -/
def ceil8 (n : Nat) : Nat := (n + 7) / 8

/-- `w = sint(WIDTH)` (10_state.md R21). -/
def State.w (s : State p) : Int := s.width.toInt

/-- `h = sint(HEIGHT)` (10_state.md R22). -/
def State.h (s : State p) : Int := s.height.toInt

/-- `len = uint(BLEN)` (10_state.md R23). -/
def State.len (s : State p) : Nat := s.blen.toNat

/-- Both dimensions are positive: the condition under which a command forms a shape (41_pack.md R114,
42_unpack.md R126). -/
def State.dimsOk (s : State p) : Bool := decide (0 < s.w) && decide (0 < s.h)

/-- The number of columns, once it is known to be positive (00_scope.md R11). -/
def State.cols (s : State p) : Nat := s.w.toNat

/-- The number of rows, once it is known to be positive (00_scope.md R11). -/
def State.rows (s : State p) : Nat := s.h.toNat

/-- `N = w*h` (00_scope.md R11). -/
def State.cells (s : State p) : Nat := s.cols * s.rows

/-- `L = ceil8(N)` (00_scope.md R11). -/
def State.packedLen (s : State p) : Nat := ceil8 s.cells

/-- A data word operand on the `XLEN`-bit data path (30_encoding.md R74). -/
def dataWord (v : Nat) : Word p := BitVec.ofNat p.xlen v

/-- A dimension as a register word: sign-extended (30_encoding.md R78). -/
def dimWord (d : Dim p) : Word p := d.signExtend p.xlen

/-- A length as a register word: zero-extended (30_encoding.md R78). -/
def lenWord (l : Len p) : Word p := l.setWidth p.xlen

/-- A cell as read data: zero-extended (40_host_access.md R93). -/
def cellWord (b : Bit) : Word p := b.setWidth p.xlen

/-- A byte as read data: zero-extended (40_host_access.md R95). -/
def byteWord (b : Byte) : Word p := b.setWidth p.xlen

/-- What WIDTH and HEIGHT keep of a written word: its low `DIMW` bits (30_encoding.md R78). -/
def wordDim (v : Word p) : Dim p := v.setWidth p.dimw

/-- What BLEN keeps of a written word: its low `LENW` bits (30_encoding.md R78). -/
def wordLen (v : Word p) : Len p := v.setWidth p.lenw

/-- What a GM cell keeps of a written word: bit 0 (40_host_access.md R94). -/
def wordCell (v : Word p) : Bit := v.setWidth 1

/-- What a BM byte keeps of a written word: bits 7 to 0 (40_host_access.md R96). -/
def wordByte (v : Word p) : Byte := v.setWidth 8

/-- The packed byte `{b[7], b[6], b[5], b[4], b[3], b[2], b[1], b[0]}`: bit `i` of the byte is `b i`
(30_encoding.md R71). -/
def joinBits (b : Nat → Bit) : Byte := b 7 ++ b 6 ++ b 5 ++ b 4 ++ b 3 ++ b 2 ++ b 1 ++ b 0

/-- Bit `i` of a byte (00_scope.md R8, R9). -/
def byteBit (v : Byte) (i : Nat) : Bit := v.extractLsb' i 1

end Sys2Proof.Machine
end

