-- ==== Sys2Proof/Machine/Flags.lean ====
section
/-! DEFINITION. The STATUS word and its fields' numbers (10_state.md R25 to R28; 30_encoding.md R76, R77,
R81). -/

namespace Sys2Proof.Machine

variable {p : Config.Params}

/-- The value of `OP` for a command: 0 PACK, 1 UNPACK (10_state.md R27). -/
def Command.bit : Command → Bit
  | .pack => 0
  | .unpack => 1

/-- The command a command word selects: bit 0 of the word (30_encoding.md R76). -/
def Command.ofWord (v : Word p) : Command :=
  match v.getLsbD 0 with
  | false => .pack
  | true => .unpack

/-- The command word of a command, its reserved bits 0 (30_encoding.md R76). -/
def Command.word (c : Command) : Word p := c.bit.setWidth p.xlen

/-- The value of `ERR` for an error (30_encoding.md R81). -/
def ErrorCode.code : ErrorCode → BitVec 2
  | .none => 0
  | .insufficientData => 1
  | .dimensionMismatch => 2
  | .imageLoad => 3

/-- The status word `zext_XLEN({ERR[1:0], OP, BUSY})` (10_state.md R25). -/
def State.statusWord (s : State p) : Word p :=
  (s.err.code ++ s.op.bit ++ BitVec.ofBool s.busy : BitVec 4).setWidth p.xlen

end Sys2Proof.Machine
end

