-- ==== Sys2Proof/Machine/Ops.lean ====
section
/-! DEFINITION. The shared operations: the two memories, the host port's response, command start, the end
of a command with or without an error (the block's form of an exception), and the reset event. -/

namespace Sys2Proof.Machine

variable {p : Config.Params}

/-! ### A memory: a list of (key, cell) pairs, keys strictly rising -/

/-- The cell listed under a key. -/
def Memory.get? {α : Type} : List (Nat × α) → Nat → Option α
  | [], _ => none
  | (k, v) :: rest, a => if k = a then some v else Memory.get? rest a

/-- The memory with `v` at key `a`. -/
def Memory.set {α : Type} : List (Nat × α) → Nat → α → List (Nat × α)
  | [], a, v => [(a, v)]
  | (k, u) :: rest, a, v =>
    if a < k then (a, v) :: (k, u) :: rest
    else if a = k then (a, v) :: rest
    else (k, u) :: Memory.set rest a v

/-- The memory with every entry of a list of writes in place. The writes of a command go to different keys,
so their order is free (41_pack.md R116, 42_unpack.md R133: "any evaluation order"). -/
def Memory.setAll {α : Type} (m : List (Nat × α)) : List (Nat × α) → List (Nat × α)
  | [] => m
  | (a, v) :: rest => Memory.set (Memory.setAll m rest) a v

/-- The canonical form: keys strictly rising and below the memory's size. An unlisted key reads as no
written value at all, so no entry can equal it (log 7). -/
def Memory.wf {α : Type} (size : Nat) : List (Nat × α) → Bool
  | [] => true
  | (k, _) :: rest => decide (k < size) && rest.all (fun p => decide (k < p.1)) && Memory.wf size rest

/-- The key of a GM cell: `GDIM*r + c`, `128*r + c` by default (30_encoding.md R79). -/
def gmKey (r c : Nat) (p : Config.Params := Config.params) : Nat := p.gdim * r + c

/-- Row and column name a cell of GM (10_state.md R29). -/
def gmInRange (r c : Nat) (p : Config.Params := Config.params) : Bool :=
  decide (r < p.gdim) && decide (c < p.gdim)

/-- `GM[r][c]`: the cell written last, else what the last reset drew there (10_state.md R35). -/
def State.gmRead (s : State p) (r c : Nat) : Bit :=
  (Memory.get? s.gm (gmKey r c p)).getD (Config.gmDraw s.epoch (gmKey r c p))

/-- `BM[k]`: the byte written last, else what the last reset drew there (10_state.md R35). -/
def State.bmRead (s : State p) (k : Nat) : Byte :=
  (Memory.get? s.bm k).getD (Config.bmDraw s.epoch k)

/-- `GM[r][c] <- b` (00_scope.md R9). -/
def State.gmWrite (s : State p) (r c : Nat) (b : Bit) : State p :=
  { s with gm := Memory.set s.gm (gmKey r c p) b }

/-- `BM[k] <- v` (00_scope.md R9). -/
def State.bmWrite (s : State p) (k : Nat) (v : Byte) : State p :=
  { s with bm := Memory.set s.bm k v }

/-! ### The host port's response (30_encoding.md R74) -/

/-- The request is answered with `rdata = v`. -/
def State.respond (s : State p) (v : Word p) : State p := { s with rdata := some v }

/-- The request is answered with `rdata = any(XLEN)`, a fresh draw (40_host_access.md R98). -/
def State.respondAny (s : State p) : State p :=
  { s with rdata := some (Config.busyRead p.xlen s.draws), draws := s.draws + 1 }

/-- A read that is defined only while idle: `v`, or `any(XLEN)` while `BUSY = 1` (40_host_access.md R98). -/
def State.respondIdle (s : State p) (v : Word p) : State p :=
  if s.busy then s.respondAny else s.respond v

/-- A write has no response (30_encoding.md R74). -/
def State.noResponse (s : State p) : State p := { s with rdata := none }

/-- A write request with effect `f`: performed while idle, ignored while `BUSY = 1` (40_host_access.md R98). -/
def State.hostWrite (s : State p) (f : State p → State p) : State p :=
  if s.busy then s.noResponse else (f s).noResponse

/-! ### Commands: start, success, failure, and the registers -/

/-- Command start (40_host_access.md R92): `OP <- v[0]`, `ERR <- 0`, `BUSY <- 1`. It also ends the error
report of the command before (60_exceptions.md R167). -/
def State.startCommand (s : State p) (v : Word p) : State p :=
  { s with op := Command.ofWord v, err := .none, busy := true }

/-- `fail E` (60_exceptions.md R166): `ERR <- code(E)`, `BUSY <- 0`, nothing else. -/
def State.fail (s : State p) (e : ErrorCode) : State p := { s with err := e, busy := false }

/-- The end of a successful command: `ERR <- 0`, `BUSY <- 0` (41_pack.md R114, 42_unpack.md R129). -/
def State.succeed (s : State p) : State p := { s with err := .none, busy := false }

/-- EXEC is enabled for command `c` (41_pack.md R114, 42_unpack.md R129). -/
def State.execEnabled (s : State p) (c : Command) : Bool := s.busy && decide (s.op = c)

/-- RDREG's response (40_host_access.md R90): STATUS, CMD and the reserved numbers are defined in every state,
the operand registers only while idle (R98). -/
def State.readRegister (s : State p) (n : Nat) : State p :=
  match n with
  | 0 => s.respond 0
  | 1 => s.respond s.statusWord
  | 2 => s.respondIdle (dimWord s.width)
  | 3 => s.respondIdle (dimWord s.height)
  | 4 => s.respondIdle (lenWord s.blen)
  | _ => s.respond 0

/-- WRREG's effect while idle (40_host_access.md R91, R92). -/
def State.writeRegister (s : State p) (n : Nat) (v : Word p) : State p :=
  match n with
  | 0 => s.startCommand v
  | 1 => s
  | 2 => { s with width := wordDim v }
  | 3 => { s with height := wordDim v }
  | 4 => { s with blen := wordLen v }
  | _ => s

/-! ### The reset event -/

/-- RESET (70_reset_and_hazards.md R180): registers and STATUS fields 0, a pending command dropped (R181),
every cell of both memories drawn anew (R182). The model's own fields of the port are not the block's and
stay. -/
def State.resetEvent (s : State p) : State p :=
  { s with
    width := 0, height := 0, blen := 0, busy := false, op := .pack, err := .none
    gm := [], bm := [], epoch := s.epoch + 1 }

end Sys2Proof.Machine
end

