-- ==== Sys2Proof/Machine/HostAccess.lean ====
section
/-! DEFINITION. The eight host requests (40_host_access.md R90 to R98; 20_memory.md R50 to R52). Each is
performed whole (20_memory.md R57); none raises an error. -/

namespace Sys2Proof.Machine

variable {p : Config.Params}

/-- RDREG (40_host_access.md R90). -/
def execRdreg (n : Nat) (s : State p) : Host.Outcome (State p) Fault Refusal :=
  .next (s.readRegister n)

/-- WRREG (40_host_access.md R91, R92). -/
def execWrreg (n v : Nat) (s : State p) : Host.Outcome (State p) Fault Refusal :=
  .next (s.hostWrite fun t => t.writeRegister n (dataWord v))

/-- RDG (40_host_access.md R93); a place out of range reads 0 (20_memory.md R52). -/
def execRdg (r c : Nat) (s : State p) : Host.Outcome (State p) Fault Refusal :=
  .next (if gmInRange r c p then s.respondIdle (cellWord (s.gmRead r c)) else s.respond 0)

/-- WRG (40_host_access.md R94); a place out of range is not written (20_memory.md R52). -/
def execWrg (r c v : Nat) (s : State p) : Host.Outcome (State p) Fault Refusal :=
  .next (if gmInRange r c p then s.hostWrite fun t => t.gmWrite r c (wordCell (dataWord (p := p) v)) else s.noResponse)

/-- RDB (40_host_access.md R95): out of range is decided before `BUSY`. -/
def execRdb (k : Nat) (s : State p) : Host.Outcome (State p) Fault Refusal :=
  .next (if k < p.nbyte then s.respondIdle (byteWord (s.bmRead k)) else s.respond 0)

/-- WRB (40_host_access.md R96). -/
def execWrb (k v : Nat) (s : State p) : Host.Outcome (State p) Fault Refusal :=
  .next (if k < p.nbyte then s.hostWrite fun t => t.bmWrite k (wordByte (dataWord (p := p) v)) else s.noResponse)

/-- RDRSV (40_host_access.md R97): 0, whether `BUSY` is 0 or 1, whatever the address. -/
def execRdrsv (_a : Nat) (s : State p) : Host.Outcome (State p) Fault Refusal :=
  .next (s.respond 0)

/-- WRRSV (40_host_access.md R97): ignored, whether `BUSY` is 0 or 1. -/
def execWrrsv (_a _v : Nat) (s : State p) : Host.Outcome (State p) Fault Refusal :=
  .next s.noResponse

end Sys2Proof.Machine
end

