-- ==== Sys2Proof/Machine/Pack.lean ====
section
/-! DEFINITION. PACK: the EXEC step for `OP = 0` (41_pack.md R114, R115). -/

namespace Sys2Proof.Machine

variable {p : Config.Params}

/-- The bit of the padded flat sequence at index `n`: a cell of the corner in row-major order, else the
padding 0 (41_pack.md R114). -/
def packBit (s : State p) (n : Nat) : Bit :=
  if n < s.cells then s.gmRead (n / s.cols) (n % s.cols) else 0

/-- Byte `k` of the packed sequence (41_pack.md R114). -/
def packByte (s : State p) (k : Nat) : Byte := joinBits fun i => packBit s (8 * k + i)

/-- The writes `BM[k] <- …` for `k = 0 .. L-1` (41_pack.md R114). -/
def packWrites (s : State p) : List (Nat × Byte) :=
  (List.range s.packedLen).map fun k => (k, packByte s k)

/-- A successful PACK: the bytes, `BLEN <- L`, `ERR <- 0`, `BUSY <- 0`; every cell is read from the GM of the
start of the step (41_pack.md R114). -/
def packResult (s : State p) : State p :=
  State.succeed
    { s with bm := Memory.setAll s.bm (packWrites s), blen := BitVec.ofNat p.lenw s.packedLen }

/-- PACK (41_pack.md R114, R115). Where EXEC is not enabled for PACK the step does not exist, and the block
does nothing (log 9). -/
def execPack (s : State p) : Host.Outcome (State p) Fault Refusal :=
  .next <|
    if s.execEnabled .pack then
      if s.dimsOk then packResult s else s.fail .dimensionMismatch
    else s

end Sys2Proof.Machine
end

