-- ==== Sys2Proof/Machine/Unpack.lean ====
section
/-! DEFINITION. UNPACK: the EXEC step for `OP = 1` (42_unpack.md R129). -/

namespace Sys2Proof.Machine

variable {p : Config.Params}

/-- The bit of the reconstructed flat sequence at index `n`: bit `n mod 8` of byte `n div 8`
(42_unpack.md R125, R129). -/
def unpackBit (s : State p) (n : Nat) : Bit := byteBit (s.bmRead (n / 8)) (n % 8)

/-- The writes `GM[n div w][n mod w] <- …` for `n = 0 .. N-1` (42_unpack.md R129). -/
def unpackWrites (s : State p) : List (Nat × Bit) :=
  (List.range s.cells).map fun n => (gmKey (n / s.cols) (n % s.cols) p, unpackBit s n)

/-- A successful UNPACK: the cells of the corner, `ERR <- 0`, `BUSY <- 0` (42_unpack.md R129). -/
def unpackResult (s : State p) : State p :=
  State.succeed { s with gm := Memory.setAll s.gm (unpackWrites s) }

/-- UNPACK (42_unpack.md R129): the dimensions are checked first, then the length (R128). Where EXEC is not
enabled for UNPACK the step does not exist, and the block does nothing (log 9). -/
def execUnpack (s : State p) : Host.Outcome (State p) Fault Refusal :=
  .next <|
    if s.execEnabled .unpack then
      if s.dimsOk then
        if s.len < s.packedLen then s.fail .insufficientData else unpackResult s
      else s.fail .dimensionMismatch
    else s

end Sys2Proof.Machine
end

