-- ==== Sys2Proof/Machine/Dispatch.lean ====
section
/-! DEFINITION. One arm per instruction. -/

namespace Sys2Proof.Machine

def exec (i : Instr) (s : State) : Host.Outcome State Fault Refusal :=
  match i with
  | .rdreg n => Sys2Proof.Machine.execRdreg n s
  | .wrreg n v => Sys2Proof.Machine.execWrreg n v s
  | .rdg r c => Sys2Proof.Machine.execRdg r c s
  | .wrg r c v => Sys2Proof.Machine.execWrg r c v s
  | .rdb k => Sys2Proof.Machine.execRdb k s
  | .wrb k v => Sys2Proof.Machine.execWrb k v s
  | .rdrsv a => Sys2Proof.Machine.execRdrsv a s
  | .wrrsv a v => Sys2Proof.Machine.execWrrsv a v s
  | .pack => Sys2Proof.Machine.execPack s
  | .unpack => Sys2Proof.Machine.execUnpack s

end Sys2Proof.Machine
end

