-- ==== Sys2Proof/Machine/Fetch.lean ====
section
/-! DEFINITION. Which agent moves next and what it runs (00_scope.md R5; 70_reset_and_hazards.md R190,
R192). The block has no program counter (10_state.md R31): a request word comes from the host, and the command
EXEC performs is the one `OP` holds (R27). -/

namespace Sys2Proof.Machine

variable {p : Config.Params}

/-- What a step does: run an instruction, or be over already. -/
inductive Fetched (p : Config.Params := Config.params) where
  /-- run `i` on the state `s` -/
  | run (i : Instr) (s : State p)
  /-- the step ends in `s` -/
  | done (s : State p)

/-- BPU's turn: EXEC of the pending command, chosen by `OP`, exactly when `BUSY = 1`; while idle the block
changes nothing on its own (00_scope.md R5, 70_reset_and_hazards.md R193; log 4). -/
def bpuTurn (s : State p) : Fetched p :=
  if s.busy then .run (decodeCmd (s.op.word (p := p))) s else .done s

/-- The next event. When no event is left, a pending command is still owed its EXEC step (R190, R192; log 3). -/
def fetch (s : State p) : Fetched p :=
  match s.inputs with
  | [] => bpuTurn s
  | .request req :: rest => .run (decodeReq req) { s with inputs := rest }
  | .exec :: rest => bpuTurn { s with inputs := rest }
  | .reset :: rest => .done (State.resetEvent { s with inputs := rest })

/-- The state in which the next step runs the encoded instruction: a request word is the host's next
request; a command word has just been started (40_host_access.md R92) and BPU moves next. Log 10. -/
def State.present (s : State p) : Encoded p → State p
  | .hreq req => { s with inputs := .request req :: s.inputs }
  | .cmd word =>
    { s with
      op := Command.ofWord word, err := .none, busy := true
      inputs := .exec :: s.inputs }

end Sys2Proof.Machine
end

