-- ==== Sys2Proof/Machine/Step.lean ====
section
/-! DEFINITION. One step of the machine. -/

namespace Sys2Proof.Machine

/-- One step of one agent (00_scope.md R5). -/
def step (s : State) : Host.Outcome State Fault Refusal :=
  match fetch s with
  | .run i t => exec i t
  | .done t => .next t

/-- `s` with the instruction of a row of spec/opcode_table.json where the next step fetches it; bits that
are no encoded instruction are not presented. Log 10. -/
def State.withFetchWord (s : State) (nbits w : Nat) : State :=
  match encodedOfNat nbits w with
  | .ok e => s.present e
  | .error _ => s

end Sys2Proof.Machine
end

