-- ==== Sys2Proof/Machine/Parametric.lean ====
section
/-! DEFINITION. The machine at any parameters (00_scope.md R6: "A model takes the parameters as arguments"). The
meanings, the state and the fetch are one text for all of them; `exec`, `step` and `core` are the machine of
this hardware, at the default column of R6, and what follows is the same machine at parameters given. -/

namespace Sys2Proof.Machine

variable {p : Config.Params}

/-- `exec` at the parameters of the state. -/
def execAt (i : Instr) (s : State p) : Host.Outcome (State p) Fault Refusal :=
  match i with
  | .rdreg n => execRdreg n s
  | .wrreg n v => execWrreg n v s
  | .rdg r c => execRdg r c s
  | .wrg r c v => execWrg r c v s
  | .rdb k => execRdb k s
  | .wrb k v => execWrb k v s
  | .rdrsv a => execRdrsv a s
  | .wrrsv a v => execWrrsv a v s
  | .pack => execPack s
  | .unpack => execUnpack s

/-- `step` at the parameters of the state. -/
def stepAt (s : State p) : Host.Outcome (State p) Fault Refusal :=
  match fetch s with
  | .run i t => execAt i t
  | .done t => .next t

/-- The machine that takes the parameters `p`, where they meet the constraints a model must check
(00_scope.md R7). -/
def coreAt (p : Config.Params) : Option Host.Core :=
  if p.valid then
    some { State := State p, Fault := Fault, Refusal := Refusal, step := stepAt, reset := State.resetAt p }
  else none

end Sys2Proof.Machine
end

