-- ==== Sys2Proof/Machine/Script.lean ====
section
/-! DEFINITION. The host-script notation and its pseudo-instructions (30_encoding.md R82; 40_host_access.md
R99), as lists of events. A script says where the EXEC step of a command falls among its requests, as the
programs of 95_test_vectors.md L3 do. -/

namespace Sys2Proof.Machine.Script

variable {p : Config.Params}

/-- One request line `(sel, addr, wdata)`. -/
def issue (sel : BitVec 3) (addr : Addr p) (v : Word p) : Event p := .request (reqWord sel addr v)

/-- `RDREG n` -/
def rdreg (n : Addr p) : Event p := issue 0b000#3 n 0

/-- `WRREG n, v` -/
def wrreg (n : Addr p) (v : Word p) : Event p := issue 0b001#3 n v

/-- `RDG r, c` -/
def rdg (r c : Nat) : Event p := issue 0b010#3 (gmAddr r c p) 0

/-- `WRG r, c, b` -/
def wrg (r c : Nat) (b : Word p) : Event p := issue 0b011#3 (gmAddr r c p) b

/-- `RDB k` -/
def rdb (k : Addr p) : Event p := issue 0b100#3 k 0

/-- `WRB k, v` -/
def wrb (k : Addr p) (v : Word p) : Event p := issue 0b101#3 k v

/-- `RDRSV a` -/
def rdrsv (a : Addr p) : Event p := issue 0b110#3 a 0

/-- `WRRSV a, v` -/
def wrrsv (a : Addr p) (v : Word p) : Event p := issue 0b111#3 a v

/-- The pseudo-instruction `PACK`: `WRREG 0, 0`. -/
def pack : Event p := wrreg 0 0

/-- The pseudo-instruction `UNPACK`: `WRREG 0, 1`. -/
def unpack : Event p := wrreg 0 1

/-- The pseudo-instruction that starts a command. -/
def start : Command → Event p
  | .pack => pack
  | .unpack => unpack

/-- The pseudo-instruction `WAIT` (40_host_access.md R99), unrolled for a run in which the EXEC step of the
pending command falls after `polls` reads of STATUS: the last read is the first one after EXEC. -/
def wait (polls : Nat) : List (Event p) :=
  List.replicate polls (rdreg 1) ++ [.exec, rdreg 1]

/-- The pseudo-instruction `LDGRID h, w, rows`. -/
def ldgrid (h w : Nat) (rows : Nat → Nat → Bit) : List (Event p) :=
  wrreg 3 (BitVec.ofNat p.xlen h) :: wrreg 2 (BitVec.ofNat p.xlen w) ::
    (List.range h).flatMap fun r =>
      (List.range w).map fun c => wrg r c ((rows r c).setWidth p.xlen)

/-- The pseudo-instruction `LDBYTES [b0, b1, ...]`. -/
def ldbytes (bytes : List Byte) : List (Event p) :=
  ((List.range bytes.length).map fun k =>
      wrb (BitVec.ofNat p.aw k) ((bytes.getD k 0).setWidth p.xlen)) ++
    [wrreg 4 (BitVec.ofNat p.xlen bytes.length)]

end Sys2Proof.Machine.Script
end

