-- ==== Sys2Proof/Machine/Grid.lean ====
section
/-! DEFINITION. The source's two functions on mathematical objects: BinaryGrid, flatten, pad, pack and unpack
with their preconditions (00_scope.md R12; 41_pack.md R110 to R113, R115; 42_unpack.md R125 to R128), and how
the block's memories hold a grid and a byte sequence (10_state.md R38, R39). Nothing here is state. -/

namespace Sys2Proof.Machine

variable {p : Config.Params}

/-- A BinaryGrid of shape (height, width): `cell r c` for `r < height`, `c < width`; no other cell is part of
it (00_scope.md R12). -/
structure BinaryGrid where
  height : Nat
  width : Nat
  cell : Nat → Nat → Bit

/-- The same grid: one shape, and the same cells within it (00_scope.md R12). -/
def BinaryGrid.Same (G H : BinaryGrid) : Prop :=
  G.height = H.height ∧ G.width = H.width ∧
    ∀ r c, r < G.height → c < G.width → G.cell r c = H.cell r c

/-- `flatten(G)[n] = G[n div w][n mod w]` for `n = 0 .. h*w - 1` (41_pack.md R110). -/
def flatten (G : BinaryGrid) : List Bit :=
  (List.range (G.height * G.width)).map fun n => G.cell (n / G.width) (n % G.width)

/-- The flat sequence followed by zero bits up to a multiple of 8 (41_pack.md R111). -/
def pad (f : List Bit) : List Bit := f ++ List.replicate (8 * ceil8 f.length - f.length) 0

/-- `pack(G)`: the bytes of the padded flat sequence, the first bit of each group of 8 in bit 0
(41_pack.md R112). -/
def pack (G : BinaryGrid) : List Byte :=
  (List.range (ceil8 (G.height * G.width))).map fun k =>
    joinBits fun i => (pad (flatten G)).getD (8 * k + i) 0

/-- Step (1) of `unpack`: 8 bits of each byte in sequence order, bit `i` of byte `k` becoming bit `8k+i`
(42_unpack.md R125). -/
def flatBits (B : List Byte) : List Bit :=
  B.flatMap fun v => (List.range 8).map fun i => byteBit v i

/-- `unpack(B, w, h)`: the flat bits truncated to the first `w*h` and reshaped row-major
(42_unpack.md R125). -/
def unpack (B : List Byte) (w h : Nat) : BinaryGrid where
  height := h
  width := w
  cell := fun r c => ((flatBits B).take (w * h)).getD (r * w + c) 0

/-- The call `pack` on a declared shape, with its failure case (41_pack.md R115). -/
def packCall (cell : Nat → Nat → Bit) (w h : Int) : Except ErrorCode (List Byte) :=
  if w ≤ 0 ∨ h ≤ 0 then .error .dimensionMismatch
  else .ok (pack { height := h.toNat, width := w.toNat, cell := cell })

/-- The call `unpack(bytes, width, height)` with its two preconditions, the dimensions first
(42_unpack.md R126 to R128). -/
def unpackCall (B : List Byte) (w h : Int) : Except ErrorCode BinaryGrid :=
  if w ≤ 0 ∨ h ≤ 0 then .error .dimensionMismatch
  else if B.length < ceil8 (w * h).toNat then .error .insufficientData
  else .ok (unpack B w.toNat h.toNat)

/-- The grid in the top-left corner of GM, of the shape WIDTH and HEIGHT declare (10_state.md R38). -/
def gridOf (s : State p) : BinaryGrid where
  height := s.rows
  width := s.cols
  cell := s.gmRead

/-- The byte sequence in BM, of length BLEN (10_state.md R39). -/
def bytesOf (s : State p) : List Byte := (List.range s.len).map s.bmRead

end Sys2Proof.Machine
end

