-- ==== Sys2Proof/Machine/Serial.lean ====
section
/-! DEFINITION. The bit-serial loops, the form a shift-register implementation takes (41_pack.md R116,
42_unpack.md R133). Their variables are local names, not state (10_state.md R32). -/

namespace Sys2Proof.Machine

/-- The variables of the packing loop: `acc`, `i`, and the bytes written so far (`k` is their number). -/
structure PackLoop where
  acc : Byte
  i : Nat
  out : List Byte
  deriving DecidableEq, Repr

/-- `acc[i] = b`. -/
def assignBit (acc : Byte) (i : Nat) (b : Bit) : Byte :=
  (acc &&& ~~~(1#8 <<< i)) ||| (b.setWidth 8 <<< i)

/-- One iteration of the packing loop (41_pack.md R116). -/
def packCell (p : PackLoop) (b : Bit) : PackLoop :=
  let acc := assignBit p.acc p.i b
  if p.i + 1 = 8 then { acc := 0, i := 0, out := p.out ++ [acc] }
  else { p with acc := acc, i := p.i + 1 }

/-- The packing loop over rows and columns, and its last partial byte (41_pack.md R116). -/
def packSerial (G : BinaryGrid) : List Byte :=
  let p :=
    (List.range G.height).foldl
      (fun p r => (List.range G.width).foldl (fun p c => packCell p (G.cell r c)) p)
      { acc := 0, i := 0, out := [] }
  if p.i = 0 then p.out else p.out ++ [p.acc]

/-- The variables of the unpacking loop: `r`, `c`, and the writes `GM[r][c] <- b` made so far, in order. -/
structure UnpackLoop where
  r : Nat
  c : Nat
  out : List (Nat × Nat × Bit)
  deriving DecidableEq, Repr

/-- The body of the unpacking loop for a bit that is no padding (42_unpack.md R133). -/
def unpackEmit (w : Nat) (p : UnpackLoop) (b : Bit) : UnpackLoop :=
  let out := p.out ++ [(p.r, p.c, b)]
  if p.c + 1 = w then { r := p.r + 1, c := 0, out := out } else { p with c := p.c + 1, out := out }

/-- The unpacking loop over the bytes and their bits (42_unpack.md R133): the writes it makes. -/
def unpackSerial (B : Nat → Byte) (w h : Nat) : List (Nat × Nat × Bit) :=
  ((List.range (ceil8 (w * h))).foldl
    (fun p k =>
      (List.range 8).foldl
        (fun p i => if 8 * k + i < w * h then unpackEmit w p (byteBit (B k) i) else p) p)
    { r := 0, c := 0, out := [] }).out

end Sys2Proof.Machine
end

