-- ==== Sys2Proof/Safety.lean ====
section
/-! DEFINITION. What counts as a safe run, in the terms the statements use: the invariant of the machine, and
which event the next step takes. -/

namespace Sys2Proof.Machine

variable {p : Config.Params}

/-- Both memories are in their canonical form. -/
def State.memWf (s : State p) : Prop :=
  Memory.wf p.ncell s.gm = true ∧ Memory.wf p.nbyte s.bm = true

/-- `ERR` agrees with the other STATUS fields: code 3 is never written (60_exceptions.md R163), a pending
command has no report (10_state.md R28), and PACK cannot raise code 1 (60_exceptions.md R161). -/
def State.statusOk (s : State p) : Prop :=
  s.err ≠ .imageLoad ∧ (s.busy = true → s.err = .none) ∧ (s.op = .pack → s.err ≠ .insufficientData)

/-- The invariant every step keeps. -/
def State.Inv (s : State p) : Prop := s.memWf ∧ s.statusOk

/-- The next step is an EXEC: BPU moves, with a command pending (00_scope.md R5). -/
def State.takesExec (s : State p) : Bool :=
  s.busy &&
    match s.inputs with
    | [] => true
    | .exec :: _ => true
    | .request _ :: _ => false
    | .reset :: _ => false

/-- The next step is the reset event. -/
def State.takesReset (s : State p) : Bool :=
  match s.inputs with
  | .reset :: _ => true
  | [] => false
  | .exec :: _ => false
  | .request _ :: _ => false

/-- The host request the next step performs. -/
def State.takesRequest (s : State p) : Option Instr :=
  match s.inputs with
  | .request req :: _ => some (decodeReq req)
  | [] => none
  | .exec :: _ => none
  | .reset :: _ => none

/-- The next step is a host write to register `n` that is performed, not ignored. -/
def State.takesWrite (s : State p) (n : Nat) : Prop :=
  s.busy = false ∧ ∃ v, s.takesRequest = some (.wrreg n v)

/-- The block is as before: every item of 10_state.md R20, and what every cell and byte reads as. -/
def State.blockKept (s t : State p) : Prop :=
  t.toBlock = s.toBlock ∧ (∀ r c, t.gmRead r c = s.gmRead r c) ∧ ∀ k, t.bmRead k = s.bmRead k

/-- The model's own fields are as before: the events still to come, and the draws made. -/
def State.queueKept (s t : State p) : Prop := t.inputs = s.inputs ∧ t.draws = s.draws

/-- The host requests that write (30_encoding.md R75: `we = 1`). -/
def isHostWrite : Instr → Bool
  | .wrreg _ _ => true
  | .wrg _ _ _ => true
  | .wrb _ _ => true
  | .wrrsv _ _ => true
  | .rdreg _ => false
  | .rdg _ _ => false
  | .rdb _ => false
  | .rdrsv _ => false
  | .pack => false
  | .unpack => false

/-- The instruction whose EXEC step performs a command (10_state.md R27). -/
def commandInstr : Command → Instr
  | .pack => .pack
  | .unpack => .unpack

/-- A run of `k` steps that answers the state `t`. -/
def State.runsTo (s : State) (k : Nat) (t : State) : Prop :=
  Host.Core.run Sys2Proof.core k s = .next t

/-- The state right after a command is started and executed with nothing in between: PACK or UNPACK as a
whole (40_host_access.md R92, then 41_pack.md R114 or 42_unpack.md R129). -/
def State.runsCommand (s : State) (c : Command) (t : State) : Prop :=
  State.runsTo { s with inputs := Script.start c :: .exec :: s.inputs } 2 t

end Sys2Proof.Machine
end

