-- ==== Sys2Proof/Certificates/Slice0/Obligations.lean ====
section
/-! DEFINITION. The statements for the provers, from the numbered rules of spec/. A clause about an `any` value
says only that there is a value, except where a statement is about the model's own form of it (and says so). -/

open Sys2Proof
open Sys2Proof.Machine

/-! ### Encoding -/

/-- Decoding the encoding of a well-formed instruction gives it back (30_encoding.md R74 to R76, R79, R83), on this
hardware and at every choice of the parameters that meets the constraints of 00_scope.md R7. What the encoder
writes into ignored bits is the model's choice (log 11); what is well-formed is its notion (log 15). -/
def Obligations.DecodeEncodeAgree : Prop :=
  (∀ i : Instr, i.wf = true → decode (encode i) = i) ∧
  ∀ p : Config.Params, p.valid = true → ∀ i : Instr, i.wf p = true → decode (encode i p) = i

/-- The other direction, for the eight transactions: a write request word is the encoding of what it decodes
to, bit for bit; a read is, up to the data field the spec ignores (R74, log 11). -/
def Obligations.RequestWordReencodes : Prop :=
  ∀ req : Req, encode (decodeReq req) =
    .hreq (if req.getLsbD 46 then req else reqWord (reqSel req) (reqAddr req) 0)

/-- Whatever is decoded is well-formed: no field of a request word gives an operand out of its range.
What is well-formed is the model's notion (log 15). At any parameters. -/
def Obligations.DecodedIsWellFormed : Prop :=
  (∀ e : Encoded, (decode e).wf = true) ∧
  ∀ (p : Config.Params) (e : Encoded p), (decode e).wf p = true

/-- 30_encoding.md R75: each of the eight values of `sel` selects its transaction. -/
def Obligations.SelSelectsTransaction : Prop :=
  ∀ (a : Addr) (v : Word),
    decodeReq (0b000#3 ++ a ++ v) = .rdreg a.toNat ∧
    decodeReq (0b001#3 ++ a ++ v) = .wrreg a.toNat v.toNat ∧
    decodeReq (0b010#3 ++ a ++ v) = .rdg (a.toNat / 128) (a.toNat % 128) ∧
    decodeReq (0b011#3 ++ a ++ v) = .wrg (a.toNat / 128) (a.toNat % 128) v.toNat ∧
    decodeReq (0b100#3 ++ a ++ v) = .rdb a.toNat ∧
    decodeReq (0b101#3 ++ a ++ v) = .wrb a.toNat v.toNat ∧
    decodeReq (0b110#3 ++ a ++ v) = .rdrsv a.toNat ∧
    decodeReq (0b111#3 ++ a ++ v) = .wrrsv a.toNat v.toNat

/-- 30_encoding.md R79: a GM address is `128*r + c`, row in bits 13 to 7, column in bits 6 to 0; a BM address
is the byte index. -/
def Obligations.AddressIsRowAndColumn : Prop :=
  (∀ r c : Nat, r < 128 → c < 128 →
    (gmAddr r c).toNat = 128 * r + c ∧
    ((gmAddr r c).extractLsb' 7 7).toNat = r ∧ ((gmAddr r c).extractLsb' 0 7).toNat = c ∧
    ∀ v : Word, decodeReq (reqWord 0b010#3 (gmAddr r c) v) = .rdg r c ∧
      decodeReq (reqWord 0b011#3 (gmAddr r c) v) = .wrg r c v.toNat) ∧
  ∀ (k : Nat) (v : Word), k < 4096 →
    decodeReq (reqWord 0b100#3 (BitVec.ofNat Config.params.aw k) v) = .rdb k ∧
    decodeReq (reqWord 0b101#3 (BitVec.ofNat Config.params.aw k) v) = .wrb k v.toNat

/-- 30_encoding.md R76: bit 0 of a command word, by match and mask, selects the command, at the decoder and at
command start; every word is a legal command word. -/
def Obligations.CommandWordSelects : Prop :=
  ∀ v : Word,
    (v &&& 0x00000001#32 = 0x00000000#32 → decodeCmd v = .pack ∧ Command.ofWord v = .pack) ∧
    (v &&& 0x00000001#32 = 0x00000001#32 → decodeCmd v = .unpack ∧ Command.ofWord v = .unpack) ∧
    (v &&& 0x00000001#32 = 0x00000000#32 ∨ v &&& 0x00000001#32 = 0x00000001#32)

/-- A few request and command words of 95_test_vectors.md L3 decode to the lines they stand for; which bits are
no encoded word is the model's choice (log 10). -/
def Obligations.TableWordsDecode : Prop :=
  decodeTableWord 56 0x0000100000000 = some (.rdreg 1) ∧
  decodeTableWord 56 0x0400300000002 = some (.wrreg 3 2) ∧
  decodeTableWord 56 0x0808300000000 = some (.rdg 1 3) ∧
  decodeTableWord 56 0x0C08300000001 = some (.wrg 1 3 1) ∧
  decodeTableWord 56 0x1000200000000 = some (.rdb 2) ∧
  decodeTableWord 56 0x14001000000FE = some (.wrb 1 0xFE) ∧
  decodeTableWord 56 0x1800000000000 = some (.rdrsv 0) ∧
  decodeTableWord 56 0x1C00000000005 = some (.wrrsv 0 5) ∧
  decodeTableWord 32 0xFFFFFFFE = some .pack ∧
  decodeTableWord 32 0xFFFFFFFF = some .unpack ∧
  decodeTableWord 56 0x2000000000000 = none

/-! ### A step -/

/-- A step whose next event is a request word runs the instruction the word decodes to, on the state with that
event taken off the list (the list is the model's own, log 2). -/
def Obligations.StepRunsRequest : Prop :=
  ∀ (s : State) (req : Req) (rest : List Event), s.inputs = .request req :: rest →
    step s = exec (decodeReq req) { s with inputs := rest }

/-- BPU's turn: with a command pending the step runs the instruction `OP` names, when its turn comes and when
no event is left (log 3); while idle the block changes nothing on its own (log 4). -/
def Obligations.StepRunsPendingCommand : Prop :=
  ∀ s : State,
    (s.busy = true →
      (s.inputs = [] → step s = exec (commandInstr s.op) s) ∧
      ∀ rest, s.inputs = .exec :: rest →
        step s = exec (commandInstr s.op) { s with inputs := rest }) ∧
    (s.busy = false →
      (s.inputs = [] → step s = .next s) ∧
      ∀ rest, s.inputs = .exec :: rest → step s = .next { s with inputs := rest })

/-- No other failure (60_exceptions.md R164, with the causes of R161 and R162): no instruction and no step faults
or refuses, an EXEC step ends idle, and it reports exactly the two errors, each exactly on its cause. That it
speaks of every instruction in every state and of every step rests on the model's choices: the type of faults is
empty (log 12), an EXEC that is not enabled does nothing (log 9), operands that fit no field have a meaning
(log 15), an idle step does nothing (log 4), EXEC comes when the events are used up (log 3). -/
def Obligations.NoOtherFailure : Prop :=
  (∀ (i : Instr) (s : State), ∃ t, exec i s = .next t) ∧
  (∀ s : State, ∃ t, step s = .next t) ∧
  ∀ s t : State, s.takesExec = true → step s = .next t →
    t.busy = false ∧
    (t.err = .none ∨ t.err = .insufficientData ∨ t.err = .dimensionMismatch) ∧
    (t.err = .dimensionMismatch ↔ s.width.toInt ≤ 0 ∨ s.height.toInt ≤ 0) ∧
    (t.err = .insufficientData ↔
      s.op = .unpack ∧ 0 < s.width.toInt ∧ 0 < s.height.toInt ∧
        s.blen.toNat < ceil8 (s.width.toInt * s.height.toInt).toNat)

/-- The reset event (70_reset_and_hazards.md R180 to R182): registers and STATUS 0, a pending command dropped,
both memories drawn anew. The draw number and the fields of the port are the model's own (logs 2, 6, 8). -/
def Obligations.ResetEventClears : Prop :=
  ∀ (s : State) (rest : List Event), s.inputs = .reset :: rest →
    ∃ t, step s = .next t ∧
      t.width = 0 ∧ t.height = 0 ∧ t.blen = 0 ∧ t.busy = false ∧ t.op = .pack ∧ t.err = .none ∧
      t.statusWord = 0 ∧
      (∀ r c, t.gmRead r c = Config.gmDraw (s.epoch + 1) (gmKey r c)) ∧
      (∀ k, t.bmRead k = Config.bmDraw (s.epoch + 1) k) ∧
      t.inputs = rest ∧ t.rdata = s.rdata ∧ t.draws = s.draws

/-- The state after reset (10_state.md R35), and a command started in it: DimensionMismatchError, no memory
touched. That no cell is listed and the model's own fields are empty is the model's form (logs 2, 6, 7, 8). -/
def Obligations.ResetStateIsIdleAndRefusesCommands : Prop :=
  State.reset.width = 0 ∧ State.reset.height = 0 ∧ State.reset.blen = 0 ∧
  State.reset.statusWord = 0 ∧ State.reset.gm = [] ∧ State.reset.bm = [] ∧
  ∀ c : Command, ∃ t, State.reset.runsCommand c t ∧
    t.err = .dimensionMismatch ∧ t.busy = false ∧ t.op = c ∧
    (∀ r c, t.gmRead r c = State.reset.gmRead r c) ∧ (∀ k, t.bmRead k = State.reset.bmRead k) ∧
    t.blen = 0

/-! ### Host requests -/

/-- 40_host_access.md R90: what RDREG answers for each register number, idle and busy; no state is written. -/
def Obligations.RdregReadsRegister : Prop :=
  ∀ (n : Nat) (s : State), ∃ t, exec (.rdreg n) s = .next t ∧
    s.blockKept t ∧ t.inputs = s.inputs ∧
    (n = 0 → t.rdata = some 0) ∧
    (n = 1 → t.rdata =
      some ((s.err.code ++ s.op.bit ++ BitVec.ofBool s.busy : BitVec 4).setWidth 32)) ∧
    (5 ≤ n → t.rdata = some 0) ∧
    (s.busy = false →
      (n = 2 → t.rdata = some (s.width.signExtend 32)) ∧
      (n = 3 → t.rdata = some (s.height.signExtend 32)) ∧
      (n = 4 → t.rdata = some (s.blen.setWidth 32))) ∧
    (s.busy = true → ∃ v, t.rdata = some v)

/-- 40_host_access.md R91: WRREG to a register other than CMD, idle and busy; every item of the block but the
written register is as before. -/
def Obligations.WrregWritesRegister : Prop :=
  ∀ (n : Nat) (v : Word) (s : State), n ≠ 0 → ∃ t, exec (.wrreg n v.toNat) s = .next t ∧
    s.queueKept t ∧
    (s.busy = true → s.blockKept t) ∧
    (s.busy = false →
      (n = 1 → s.blockKept t) ∧
      (n = 2 → t.toBlock = { s.toBlock with width := v.extractLsb' 0 8 }) ∧
      (n = 3 → t.toBlock = { s.toBlock with height := v.extractLsb' 0 8 }) ∧
      (n = 4 → t.toBlock = { s.toBlock with blen := v.extractLsb' 0 12 }) ∧
      (5 ≤ n → s.blockKept t)) ∧
    (∀ r c, t.gmRead r c = s.gmRead r c) ∧ ∀ k, t.bmRead k = s.bmRead k

/-- 40_host_access.md R92: command start writes `OP`, `ERR`, `BUSY` and nothing else; while busy it is
ignored. -/
def Obligations.CommandStartWritesStatus : Prop :=
  ∀ (v : Word) (s : State), ∃ t, exec (.wrreg 0 v.toNat) s = .next t ∧
    s.queueKept t ∧
    (s.busy = true → s.blockKept t) ∧
    (s.busy = false →
      t.toBlock = { s.toBlock with
        op := if v.getLsbD 0 then .unpack else .pack, err := .none, busy := true } ∧
      t.statusWord = if v.getLsbD 0 then 0x3 else 0x1) ∧
    (∀ r c, t.gmRead r c = s.gmRead r c) ∧ ∀ k, t.bmRead k = s.bmRead k

/-- 40_host_access.md R93: RDG answers the cell while idle, some value while busy; no state is written. -/
def Obligations.RdgReadsCell : Prop :=
  ∀ (r c : Nat) (s : State), r < 128 → c < 128 → ∃ t, exec (.rdg r c) s = .next t ∧
    s.blockKept t ∧ t.inputs = s.inputs ∧
    (s.busy = false → t.rdata = some ((s.gmRead r c).setWidth 32)) ∧
    (s.busy = true → ∃ v, t.rdata = some v)

/-- 40_host_access.md R94: WRG stores bit 0 of the data in the one cell; no other cell, no byte and no register
changes; while busy it is ignored. -/
def Obligations.WrgWritesCell : Prop :=
  ∀ (r c : Nat) (v : Word) (s : State), r < 128 → c < 128 → ∃ t, exec (.wrg r c v.toNat) s = .next t ∧
    s.queueKept t ∧
    (s.busy = true → s.blockKept t) ∧
    (s.busy = false →
      t.gmRead r c = v.extractLsb' 0 1 ∧
      (∀ r' c', r' < 128 → c' < 128 → ¬(r' = r ∧ c' = c) → t.gmRead r' c' = s.gmRead r' c') ∧
      t.toBlock = { s.toBlock with gm := t.gm }) ∧
    ∀ k, t.bmRead k = s.bmRead k

/-- 40_host_access.md R95: RDB answers the byte while idle, some value while busy, 0 out of range whether
idle or busy; no state is written. -/
def Obligations.RdbReadsByte : Prop :=
  ∀ (k : Nat) (s : State), ∃ t, exec (.rdb k) s = .next t ∧
    s.blockKept t ∧ t.inputs = s.inputs ∧
    (4096 ≤ k → t.rdata = some 0) ∧
    (k < 4096 → s.busy = false → t.rdata = some ((s.bmRead k).setWidth 32)) ∧
    (k < 4096 → s.busy = true → ∃ v, t.rdata = some v)

/-- 40_host_access.md R96: WRB stores bits 7 to 0 of the data in the one byte; no other byte, no cell and no
register changes, BLEN included; out of range and while busy it is ignored. -/
def Obligations.WrbWritesByte : Prop :=
  ∀ (k : Nat) (v : Word) (s : State), ∃ t, exec (.wrb k v.toNat) s = .next t ∧
    s.queueKept t ∧
    (4096 ≤ k ∨ s.busy = true → s.blockKept t) ∧
    (k < 4096 → s.busy = false →
      t.bmRead k = v.extractLsb' 0 8 ∧
      (∀ k', k' ≠ k → t.bmRead k' = s.bmRead k') ∧
      t.toBlock = { s.toBlock with bm := t.bm }) ∧
    ∀ r c, t.gmRead r c = s.gmRead r c

/-- 40_host_access.md R97 and 20_memory.md R52: requests to the reserved space, and, at any parameters, to a place
out of range of GM (where `AW > GAW`) or BM and to a register number above 4 (R90, R91). Numbers that no address
field holds are operands of the model's own (log 15). -/
def Obligations.ReservedSpaceIsInert : Prop :=
  (∀ (a : Nat) (v : Word) (s : State),
    (∃ t, exec (.rdrsv a) s = .next t ∧ t.rdata = some 0 ∧ s.blockKept t ∧ s.queueKept t) ∧
    ∃ t, exec (.wrrsv a v.toNat) s = .next t ∧ s.blockKept t ∧ s.queueKept t) ∧
  ∀ (p : Config.Params) (a c v : Nat) (s : State p),
    (p.gdim ≤ a →
      (∃ t, execAt (.rdg a c) s = .next t ∧ t.rdata = some 0 ∧ s.blockKept t ∧ s.queueKept t) ∧
      ∃ t, execAt (.wrg a c v) s = .next t ∧ s.blockKept t ∧ s.queueKept t) ∧
    (p.nbyte ≤ a →
      (∃ t, execAt (.rdb a) s = .next t ∧ t.rdata = some 0 ∧ s.blockKept t ∧ s.queueKept t) ∧
      ∃ t, execAt (.wrb a v) s = .next t ∧ s.blockKept t ∧ s.queueKept t) ∧
    (5 ≤ a →
      (∃ t, execAt (.rdreg a) s = .next t ∧ t.rdata = some 0 ∧ s.blockKept t ∧ s.queueKept t) ∧
      ∃ t, execAt (.wrreg a v) s = .next t ∧ s.blockKept t ∧ s.queueKept t) ∧
    (∃ t, execAt (.rdrsv a) s = .next t ∧ t.rdata = some 0 ∧ s.blockKept t ∧ s.queueKept t) ∧
    ∃ t, execAt (.wrrsv a v) s = .next t ∧ s.blockKept t ∧ s.queueKept t

/-- 40_host_access.md R98: what every request does while a command is pending. -/
def Obligations.BusyGatesRequests : Prop :=
  ∀ s : State, s.busy = true →
    (∀ i : Instr, isHostWrite i = true → ∃ t, exec i s = .next t ∧ s.blockKept t) ∧
    (∃ t, exec (.rdreg 1) s = .next t ∧ s.blockKept t ∧
      t.rdata = some ((s.err.code ++ s.op.bit ++ 1#1 : BitVec 4).setWidth 32)) ∧
    (∃ t, exec (.rdreg 0) s = .next t ∧ s.blockKept t ∧ t.rdata = some 0) ∧
    (∀ n, 5 ≤ n → ∃ t, exec (.rdreg n) s = .next t ∧ s.blockKept t ∧ t.rdata = some 0) ∧
    (∀ a, ∃ t, exec (.rdrsv a) s = .next t ∧ s.blockKept t ∧ t.rdata = some 0) ∧
    (∀ k, 4096 ≤ k → ∃ t, exec (.rdb k) s = .next t ∧ s.blockKept t ∧ t.rdata = some 0) ∧
    (∀ i : Instr,
      (∃ n, 2 ≤ n ∧ n ≤ 4 ∧ i = .rdreg n) ∨ (∃ r c, r < 128 ∧ c < 128 ∧ i = .rdg r c) ∨
        (∃ k, k < 4096 ∧ i = .rdb k) →
      ∃ t v, exec i s = .next t ∧ s.blockKept t ∧ t.rdata = some v)

/-- The model's own form of the port (logs 5 and 8): each `any(32)` read while busy takes the next draw and no
other, a write answers nothing, and an EXEC step leaves the last response, the events and the draws alone. -/
def Obligations.BusyReadsTakeFreshDraws : Prop :=
  ∀ s : State,
    (s.busy = true → ∀ i : Instr,
      (∃ n, 2 ≤ n ∧ n ≤ 4 ∧ i = .rdreg n) ∨ (∃ r c, r < 128 ∧ c < 128 ∧ i = .rdg r c) ∨
        (∃ k, k < 4096 ∧ i = .rdb k) →
      ∃ t, exec i s = .next t ∧ t.rdata = some (Config.busyRead 32 s.draws) ∧
        t.draws = s.draws + 1) ∧
    (∀ i : Instr, isHostWrite i = true →
      ∃ t, exec i s = .next t ∧ t.rdata = none ∧ t.draws = s.draws) ∧
    ∀ c : Command, ∃ t, exec (commandInstr c) s = .next t ∧ t.rdata = s.rdata ∧ s.queueKept t

/-- 30_encoding.md R78: what a written dimension or length register reads back as, what a command takes from
it, and that it is the written word exactly if that word is representable. -/
def Obligations.RegisterKeepsRepresentableValues : Prop :=
  ∀ (s : State) (v : Word), s.busy = false →
    (∃ t u, exec (.wrreg 2 v.toNat) s = .next t ∧ exec (.rdreg 2) t = .next u ∧
      t.w = (v.extractLsb' 0 8).toInt ∧
      u.rdata = some ((v.extractLsb' 0 8).signExtend 32) ∧
      (u.rdata = some v ↔ -128 ≤ v.toInt ∧ v.toInt ≤ 127)) ∧
    (∃ t u, exec (.wrreg 3 v.toNat) s = .next t ∧ exec (.rdreg 3) t = .next u ∧
      t.h = (v.extractLsb' 0 8).toInt ∧
      u.rdata = some ((v.extractLsb' 0 8).signExtend 32) ∧
      (u.rdata = some v ↔ -128 ≤ v.toInt ∧ v.toInt ≤ 127)) ∧
    (∃ t u, exec (.wrreg 4 v.toNat) s = .next t ∧ exec (.rdreg 4) t = .next u ∧
      t.len = (v.extractLsb' 0 12).toNat ∧
      u.rdata = some ((v.extractLsb' 0 12).setWidth 32) ∧
      (u.rdata = some v ↔ v.toNat ≤ 4095))

/-- After a write and then a read of the same location while idle, the read returns the written, truncated
value (20_memory.md R59). -/
def Obligations.WrittenLocationReadsBack : Prop :=
  ∀ (s : State) (v : Word), s.busy = false →
    (∀ r c, r < 128 → c < 128 → ∃ t u, exec (.wrg r c v.toNat) s = .next t ∧ exec (.rdg r c) t = .next u ∧
      u.rdata = some ((v.extractLsb' 0 1).setWidth 32)) ∧
    (∀ k, k < 4096 → ∃ t u, exec (.wrb k v.toNat) s = .next t ∧ exec (.rdb k) t = .next u ∧
      u.rdata = some ((v.extractLsb' 0 8).setWidth 32))

/-! ### PACK -/

/-- 41_pack.md R114: the EXEC step of PACK, both outcomes, in terms of the registers and cells. -/
def Obligations.PackWritesPackedBytes : Prop :=
  ∀ s : State, s.busy = true → s.op = .pack →
    ∃ t, exec .pack s = .next t ∧
      (s.width.toInt ≤ 0 ∨ s.height.toInt ≤ 0 →
        t.toBlock = { s.toBlock with err := .dimensionMismatch, busy := false }) ∧
      (0 < s.width.toInt → 0 < s.height.toInt →
        ∀ w h N L : Nat, (w : Int) = s.width.toInt → (h : Int) = s.height.toInt → N = w * h →
          L = ceil8 N →
          (∀ k i, k < L → i < 8 →
            byteBit (t.bmRead k) i =
              if 8 * k + i < N then s.gmRead ((8 * k + i) / w) ((8 * k + i) % w) else 0) ∧
          t.blen.toNat = L ∧ t.err = .none ∧ t.busy = false ∧ t.op = .pack ∧
          1 ≤ N ∧ N ≤ 16129 ∧ 1 ≤ L ∧ L ≤ 2017 ∧
          t.toBlock = { s.toBlock with bm := t.bm, blen := t.blen, err := .none, busy := false } ∧
          ∀ k, L ≤ k → t.bmRead k = s.bmRead k)

/-- 41_pack.md R115: PACK with a non-positive dimension. -/
def Obligations.PackRefusesBadDimensions : Prop :=
  ∀ s : State, s.busy = true → s.op = .pack → s.width.toInt ≤ 0 ∨ s.height.toInt ≤ 0 →
    ∃ t, exec .pack s = .next t ∧ t.err.code = 2 ∧ t.busy = false ∧
      t.width = s.width ∧ t.height = s.height ∧ t.blen = s.blen ∧ t.op = s.op ∧
      (∀ k, t.bmRead k = s.bmRead k) ∧ ∀ r c, t.gmRead r c = s.gmRead r c

/-- 41_pack.md R118: what a successful PACK leaves unchanged. -/
def Obligations.PackLeavesTheRestUnchanged : Prop :=
  ∀ s : State, s.busy = true → s.op = .pack → 0 < s.width.toInt → 0 < s.height.toInt →
    ∃ t, exec .pack s = .next t ∧
      t.width = s.width ∧ t.height = s.height ∧ t.op = s.op ∧ t.gm = s.gm ∧
      (∀ r c, t.gmRead r c = s.gmRead r c) ∧
      ∀ k, ceil8 (s.width.toInt * s.height.toInt).toNat ≤ k → t.bmRead k = s.bmRead k

/-- The EXEC step of PACK computes the source's `pack` on the grid GM holds (41_pack.md R112, R114, R115), in
every state in which it is enabled, and changes nothing of the block but BM, BLEN, ERR and BUSY; on this hardware
and at every choice of the parameters that meets the constraints of 00_scope.md R7. -/
def Obligations.PackComputesPack : Prop :=
  (∀ s : State, exec .pack s = execAt .pack s) ∧
  ∀ p : Config.Params, p.valid = true → ∀ s : State p, s.busy = true → s.op = .pack →
    ∃ t, execAt .pack s = .next t ∧
      match packCall s.gmRead s.width.toInt s.height.toInt with
      | .error e => t.toBlock = { s.toBlock with err := e, busy := false }
      | .ok B => bytesOf t = B ∧
          t.toBlock = { s.toBlock with bm := t.bm, blen := t.blen, err := .none, busy := false }

/-- The packed format (30_encoding.md R72): the packer writes every padding bit of the last byte as 0, and
there is none exactly when the number of cells is a multiple of 8. -/
def Obligations.PaddingIsWrittenZero : Prop :=
  ∀ s : State, s.busy = true → s.op = .pack → s.dimsOk = true →
    ∃ t, exec .pack s = .next t ∧
      (∀ i, s.cells % 8 ≠ 0 → s.cells % 8 ≤ i → i < 8 →
        byteBit (t.bmRead (s.packedLen - 1)) i = 0) ∧
      (∀ i, s.cells % 8 ≠ 0 → i < s.cells % 8 →
        byteBit (t.bmRead (s.packedLen - 1)) i =
          s.gmRead ((8 * (s.packedLen - 1) + i) / s.cols) ((8 * (s.packedLen - 1) + i) % s.cols)) ∧
      (s.cells % 8 = 0 ↔ 8 * s.packedLen = s.cells)

/-- The bit-serial packing loop gives the bytes of `pack`, and its final `k` is `ceil8(h*w)` (41_pack.md
R116). -/
def Obligations.SerialPackAgrees : Prop :=
  ∀ G : BinaryGrid, packSerial G = pack G ∧ (packSerial G).length = ceil8 (G.height * G.width)

/-! ### UNPACK -/

/-- 42_unpack.md R129: the EXEC step of UNPACK, its three outcomes, in terms of the registers and bytes. -/
def Obligations.UnpackWritesCorner : Prop :=
  ∀ s : State, s.busy = true → s.op = .unpack →
    ∃ t, exec .unpack s = .next t ∧
      (s.width.toInt ≤ 0 ∨ s.height.toInt ≤ 0 →
        t.toBlock = { s.toBlock with err := .dimensionMismatch, busy := false }) ∧
      (0 < s.width.toInt → 0 < s.height.toInt →
        ∀ w h : Nat, (w : Int) = s.width.toInt → (h : Int) = s.height.toInt →
          (s.blen.toNat < ceil8 (w * h) →
            t.toBlock = { s.toBlock with err := .insufficientData, busy := false }) ∧
          (ceil8 (w * h) ≤ s.blen.toNat →
            (∀ n, n < w * h → t.gmRead (n / w) (n % w) = byteBit (s.bmRead (n / 8)) (n % 8)) ∧
            t.err = .none ∧ t.busy = false ∧ t.op = .unpack ∧
            t.toBlock = { s.toBlock with gm := t.gm, err := .none, busy := false } ∧
            ∀ r c : Nat, r < 128 → c < 128 → h ≤ r ∨ w ≤ c → t.gmRead r c = s.gmRead r c))

/-- 42_unpack.md R128: the dimensions are checked first, and the length is compared only when both are
positive. -/
def Obligations.UnpackChecksDimensionsFirst : Prop :=
  ∀ s : State, s.busy = true → s.op = .unpack →
    (s.width.toInt ≤ 0 ∨ s.height.toInt ≤ 0 → ∀ len : Len,
      ∃ t, exec .unpack { s with blen := len } = .next t ∧ t.err = .dimensionMismatch) ∧
    (0 < s.width.toInt → 0 < s.height.toInt → ∀ len : Len,
      ∃ t, exec .unpack { s with blen := len } = .next t ∧
        (t.err = .insufficientData ↔
          len.toNat < ceil8 (s.width.toInt * s.height.toInt).toNat) ∧
        (t.err = .none ↔ ceil8 (s.width.toInt * s.height.toInt).toNat ≤ len.toNat))

/-- 42_unpack.md R134: what a successful UNPACK leaves unchanged. -/
def Obligations.UnpackLeavesTheRestUnchanged : Prop :=
  ∀ s : State, s.busy = true → s.op = .unpack → 0 < s.width.toInt → 0 < s.height.toInt →
    ceil8 (s.width.toInt * s.height.toInt).toNat ≤ s.blen.toNat →
    ∃ t, exec .unpack s = .next t ∧
      t.width = s.width ∧ t.height = s.height ∧ t.blen = s.blen ∧ t.op = s.op ∧ t.bm = s.bm ∧
      (∀ k, t.bmRead k = s.bmRead k) ∧
      ∀ r c : Nat, r < 128 → c < 128 → s.height.toInt ≤ r ∨ s.width.toInt ≤ c →
        t.gmRead r c = s.gmRead r c

/-- The EXEC step of UNPACK computes the source's `unpack` on the bytes BM holds (42_unpack.md R125 to R129),
in every state in which it is enabled, and changes nothing of the block but GM, ERR and BUSY; on this hardware and
at every choice of the parameters that meets the constraints of 00_scope.md R7. -/
def Obligations.UnpackComputesUnpack : Prop :=
  (∀ s : State, exec .unpack s = execAt .unpack s) ∧
  ∀ p : Config.Params, p.valid = true → ∀ s : State p, s.busy = true → s.op = .unpack →
    ∃ t, execAt .unpack s = .next t ∧
      match unpackCall (bytesOf s) s.width.toInt s.height.toInt with
      | .error e => t.toBlock = { s.toBlock with err := e, busy := false }
      | .ok G => (gridOf t).Same G ∧
          t.toBlock = { s.toBlock with gm := t.gm, err := .none, busy := false }

/-- The bit-serial unpacking loop makes exactly the writes of `unpack`, in order of the flat index
(42_unpack.md R133). -/
def Obligations.SerialUnpackAgrees : Prop :=
  ∀ (B : Nat → Byte) (w h : Nat), 0 < w →
    unpackSerial B w h =
      (List.range (w * h)).map fun n => (n / w, n % w, byteBit (B (n / 8)) (n % 8))

/-- Padding bits of the input, whatever their value, and bytes beyond the required length have no influence:
UNPACK of two states that agree on the shape and on the first `N` bits gives one grid (42_unpack.md R130,
R131). -/
def Obligations.UnpackIgnoresPaddingAndExtraBytes : Prop :=
  ∀ s s' : State, s.busy = true → s'.busy = true → s.op = .unpack → s'.op = .unpack →
    s.dimsOk = true → s'.width = s.width → s'.height = s.height →
    s.packedLen ≤ s.len → s.packedLen ≤ s'.len →
    (∀ n, n < s.cells → byteBit (s'.bmRead (n / 8)) (n % 8) = byteBit (s.bmRead (n / 8)) (n % 8)) →
    ∃ t t', exec .unpack s = .next t ∧ exec .unpack s' = .next t' ∧
      t.err = .none ∧ t'.err = .none ∧ (gridOf t').Same (gridOf t)

/-! ### Laws relating PACK and UNPACK -/

/-- 41_pack.md R113: the length of the result, and that it carries nothing but the flat bits: two grids whose
flattened sequences agree pack to the same bytes, whatever their shapes. -/
def Obligations.PackForgetsShape : Prop :=
  (∀ G : BinaryGrid, (pack G).length = ceil8 (G.height * G.width)) ∧
  ∀ G H : BinaryGrid, flatten G = flatten H → pack G = pack H

/-- 43_laws.md R141: the packed length, of the function and of the command. -/
def Obligations.PackedLengthIsCeil : Prop :=
  (∀ G : BinaryGrid, (pack G).length = ceil8 (G.height * G.width)) ∧
  ∀ s : State, s.busy = true → s.op = .pack → 0 < s.width.toInt → 0 < s.height.toInt →
    ∃ t, exec .pack s = .next t ∧
      t.blen.toNat = ceil8 (t.width.toInt * t.height.toInt).toNat ∧
      1 ≤ t.blen.toNat ∧ t.blen.toNat ≤ 2017

/-- Truncation tolerance (43_laws.md R142): of the function, and of the command: another BLEN of at least
`ceil8(w*h)` and other bytes from there onwards do not change the result. -/
def Obligations.ExtraBytesAreIgnored : Prop :=
  (∀ (G : BinaryGrid) (T : List Byte), 0 < G.height → 0 < G.width →
    (unpack (pack G ++ T) G.width G.height).Same G) ∧
  ∀ s s' : State, s.busy = true → s'.busy = true → s.op = .unpack → s'.op = .unpack →
    s.dimsOk = true → s'.width = s.width → s'.height = s.height →
    s.packedLen ≤ s.len → s.packedLen ≤ s'.len → (∀ k, k < s.packedLen → s'.bmRead k = s.bmRead k) →
    ∃ t t', exec .unpack s = .next t ∧ exec .unpack s' = .next t' ∧
      t.err = .none ∧ t'.err = .none ∧ (gridOf t').Same (gridOf t)

/-- 43_laws.md R143: the other direction holds only up to padding and length. -/
def Obligations.PackAfterUnpackClearsPadding : Prop :=
  ∀ (B : List Byte) (w h : Nat), 1 ≤ w → 1 ≤ h → ceil8 (w * h) ≤ B.length →
    (pack (unpack B w h)).length = ceil8 (w * h) ∧
    (∀ k, k + 1 < ceil8 (w * h) → (pack (unpack B w h)).getD k 0 = B.getD k 0) ∧
    (w * h % 8 = 0 →
      (pack (unpack B w h)).getD (ceil8 (w * h) - 1) 0 = B.getD (ceil8 (w * h) - 1) 0) ∧
    (w * h % 8 ≠ 0 → ∀ i, i < 8 →
      byteBit ((pack (unpack B w h)).getD (ceil8 (w * h) - 1) 0) i =
        if i < w * h % 8 then byteBit (B.getD (ceil8 (w * h) - 1) 0) i else 0)

/-- Determinism (43_laws.md R144): the outcome of a command is a function of `OP`, `WIDTH`, `HEIGHT`, `BLEN`
and the contents of GM and BM at command start, and of nothing else: not of the cells' history, nor of which reset
drew a content. The contents are those of the 128 x 128 cells and 4096 bytes there are. -/
def Obligations.CommandOutcomeDependsOnOperandsOnly : Prop :=
  ∀ s s' : State, s.busy = true → s'.busy = true → s'.op = s.op →
    s'.width = s.width → s'.height = s.height → s'.blen = s.blen →
    (∀ r c, r < 128 → c < 128 → s'.gmRead r c = s.gmRead r c) →
    (∀ k, k < 4096 → s'.bmRead k = s.bmRead k) →
    ∃ t t', exec (commandInstr s.op) s = .next t ∧ exec (commandInstr s.op) s' = .next t' ∧
      t'.err = t.err ∧ t'.blen = t.blen ∧ t'.busy = t.busy ∧
      (∀ r c, r < 128 → c < 128 → t'.gmRead r c = t.gmRead r c) ∧
      ∀ k, k < 4096 → t'.bmRead k = t.bmRead k

/-- Bit independence (43_laws.md R145): packing commutes with the cell-wise exclusive or, and flipping one cell
flips exactly one bit of the packed sequence. -/
def Obligations.PackMovesBitsIndependently : Prop :=
  (∀ (h w : Nat) (f g : Nat → Nat → Bit),
    pack ⟨h, w, fun r c => f r c ^^^ g r c⟩ =
      List.zipWith (· ^^^ ·) (pack ⟨h, w, f⟩) (pack ⟨h, w, g⟩)) ∧
  ∀ (h w : Nat) (f : Nat → Nat → Bit) (r0 c0 : Nat), r0 < h → c0 < w →
    ∀ k i, k < ceil8 (h * w) → i < 8 →
      (byteBit ((pack ⟨h, w, fun r c => if r = r0 ∧ c = c0 then ~~~f r c else f r c⟩).getD k 0) i =
          byteBit ((pack ⟨h, w, f⟩).getD k 0) i ↔
        8 * k + i ≠ r0 * w + c0)

/-- Same bytes, different shape (43_laws.md R146). -/
def Obligations.OtherShapeSameFlatBits : Prop :=
  ∀ (B : List Byte) (w h w' h' : Nat), 1 ≤ w → 1 ≤ h → 1 ≤ w' → 1 ≤ h' →
    ceil8 (w * h) ≤ B.length →
    (w' * h' = w * h → flatten (unpack B w h) = flatten (unpack B w' h')) ∧
    (w' * h' < w * h → flatten (unpack B w' h') <+: flatten (unpack B w h))

/-- 43_laws.md R147: `pack` is injective at a fixed shape, its image at that shape has `2^(h*w)` members, and
across shapes it is not injective. -/
def Obligations.PackIsInjectiveAtOneShape : Prop :=
  (∀ G H : BinaryGrid, 0 < G.height → 0 < G.width → G.height = H.height → G.width = H.width →
    pack G = pack H → G.Same H) ∧
  (∀ h w : Nat, 0 < h → 0 < w →
    Set.ncard { B : List Byte | ∃ f, B = pack ⟨h, w, f⟩ } = 2 ^ (h * w)) ∧
  ∃ G H : BinaryGrid, 0 < G.height ∧ 0 < G.width ∧ 0 < H.height ∧ 0 < H.width ∧
    G.width ≠ H.width ∧ pack G = pack H

/-- 43_laws.md R148: if a command fails, only `ERR`, `BUSY` and `OP` differ from before its start. -/
def Obligations.FailureChangesNothing : Prop :=
  ∀ (s t : State) (c : Command), s.busy = false → s.runsCommand c t → t.err ≠ .none →
    t.toBlock = { s.toBlock with err := t.err, busy := false, op := c } ∧
    (∀ r c, t.gmRead r c = s.gmRead r c) ∧ ∀ k, t.bmRead k = s.bmRead k

/-- 10_state.md R34: a command that follows a failed command behaves exactly as it would have if the failed
command had never been issued. -/
def Obligations.FailedCommandLeavesNoTrace : Prop :=
  ∀ (s t u v : State) (c d : Command), s.busy = false → s.runsCommand c t → t.err ≠ .none →
    t.runsCommand d u → s.runsCommand d v → u.toBlock = v.toBlock

/-- The hazard of a peer with the other bit order (70_reset_and_hazards.md R186): its bytes unpack, without
error, to a grid in which every full group of 8 flat bits is reversed. -/
def Obligations.OtherBitOrderReversesGroups : Prop :=
  ∀ (B : List Byte) (w h : Nat), 1 ≤ w → 1 ≤ h → ceil8 (w * h) ≤ B.length →
    ∀ n, 8 * (n / 8) + 8 ≤ w * h →
      (flatten (unpack (B.map fun v => joinBits fun i => byteBit v (7 - i)) w h)).getD n 0 =
        (flatten (unpack B w h)).getD (8 * (n / 8) + (7 - n % 8)) 0

/-! ### Host programs -/

/-- WAIT (40_host_access.md R99): every poll before the EXEC step answers the pending status and changes
nothing of the block; the poll after it answers the final status with bit 0 clear; with no command pending
the first poll ends it. -/
def Obligations.WaitEndsWithFinalStatus : Prop :=
  (∀ (s : State) (polls : Nat) (rest : List Event), s.busy = true →
    s.inputs = Script.wait polls ++ rest →
    (∀ j, 1 ≤ j → j ≤ polls → ∃ u, s.runsTo j u ∧ u.toBlock = s.toBlock ∧
      u.rdata = some s.statusWord ∧ s.statusWord.getLsbD 0 = true) ∧
    ∃ t, s.runsTo (polls + 2) t ∧ t.busy = false ∧ t.inputs = rest ∧
      t.rdata = some t.statusWord ∧ t.statusWord.getLsbD 0 = false ∧
      (t.statusWord.extractLsb' 2 2 = 0 ↔ t.err = .none)) ∧
  ∀ (s : State) (rest : List Event), s.busy = false → s.inputs = Script.rdreg 1 :: rest →
    ∃ t, step s = .next t ∧ t.toBlock = s.toBlock ∧ t.rdata = some s.statusWord ∧
      s.statusWord.getLsbD 0 = false

/-- The round trip (43_laws.md R140): of the functions, and on the block, where `PACK; WAIT; UNPACK; WAIT` from
any idle state with positive dimensions, wherever the two EXEC steps fall, ends without error, with the corner
of GM as it was and `BLEN = ceil8(w*h)`. The event list is the model's form of the host's requests and of where EXEC
falls (log 2). -/
def Obligations.RoundTrip : Prop :=
  (∀ G : BinaryGrid, 0 < G.height → 0 < G.width → (unpack (pack G) G.width G.height).Same G) ∧
  ∀ (s : State) (p q : Nat) (rest : List Event), s.busy = false → s.dimsOk = true →
    s.inputs = Script.pack :: Script.wait p ++ Script.unpack :: Script.wait q ++ rest →
    ∃ t, s.runsTo (p + q + 6) t ∧
      t.err = .none ∧ t.op = .unpack ∧ t.busy = false ∧ t.rdata = some 0x2 ∧ t.inputs = rest ∧
      t.width = s.width ∧ t.height = s.height ∧
      t.blen.toNat = ceil8 (s.cols * s.rows) ∧ (gridOf t).Same (gridOf s)

/-- Host program for PACK (70_reset_and_hazards.md R183, 30_encoding.md R82): `LDGRID h, w, rows; PACK; WAIT`
from any idle state leaves exactly `pack` of the grid in `BM[0 .. BLEN-1]`. The event list is log 2. -/
def Obligations.LoadedGridIsPacked : Prop :=
  ∀ (s : State) (h w p : Nat) (rows : Nat → Nat → Bit) (rest : List Event), s.busy = false →
    1 ≤ h → h ≤ 127 → 1 ≤ w → w ≤ 127 →
    s.inputs = Script.ldgrid h w rows ++ Script.pack :: Script.wait p ++ rest →
    ∃ t, s.runsTo (2 + h * w + (p + 3)) t ∧
      t.rdata = some 0x0 ∧ t.inputs = rest ∧ bytesOf t = pack ⟨h, w, rows⟩

/-- Host program for UNPACK (70_reset_and_hazards.md R184, 30_encoding.md R82): `LDBYTES B; WRREG 2, w;
WRREG 3, h; UNPACK; WAIT` from any idle state leaves exactly `unpack(B, w, h)` in the corner of GM. The event
list is log 2. -/
def Obligations.LoadedBytesAreUnpacked : Prop :=
  ∀ (s : State) (B : List Byte) (h w p : Nat) (rest : List Event), s.busy = false →
    1 ≤ h → h ≤ 127 → 1 ≤ w → w ≤ 127 → ceil8 (w * h) ≤ B.length → B.length ≤ 4095 →
    s.inputs = Script.ldbytes B ++ Script.wrreg 2 (BitVec.ofNat 32 w) ::
      Script.wrreg 3 (BitVec.ofNat 32 h) :: Script.unpack :: Script.wait p ++ rest →
    ∃ t, s.runsTo (B.length + 3 + (p + 3)) t ∧
      t.rdata = some 0x2 ∧ t.inputs = rest ∧ (gridOf t).Same (unpack B w h)

/-! ### The whole machine -/

/-- Every step, from every state that meets it, keeps the invariant: both memories canonical, `ERR` never 3,
no report while a command is pending, and code 1 only for UNPACK. The form of the memories is the model's own
(log 7). On this hardware, and at every choice of the parameters that meets the constraints of 00_scope.md R7. -/
def Obligations.StepKeepsInvariant : Prop :=
  (∀ s t : State, s.Inv → step s = .next t → t.Inv) ∧
  ∀ p : Config.Params, p.valid = true → ∀ s t : State p, s.Inv → stepAt s = .next t → t.Inv

/-- The state after reset meets the invariant (the form of the memories is the model's own, log 7). -/
def Obligations.ResetMeetsInvariant : Prop :=
  State.reset.Inv ∧ ∀ p : Config.Params, (State.resetAt p).Inv

/-- 30_encoding.md R77: the values the status word can take, in every state that meets the invariant, and
that its fields stand where the table says. -/
def Obligations.StatusWordValues : Prop :=
  ∀ s : State, s.Inv →
    (s.statusWord = 0x0 ∨ s.statusWord = 0x1 ∨ s.statusWord = 0x3 ∨ s.statusWord = 0x2 ∨
      s.statusWord = 0x8 ∨ s.statusWord = 0xA ∨ s.statusWord = 0x6) ∧
    s.statusWord.extractLsb' 4 28 = 0 ∧ s.statusWord.extractLsb' 2 2 = s.err.code ∧
    s.statusWord.extractLsb' 1 1 = s.op.bit ∧ s.statusWord.getLsbD 0 = s.busy

/-- 10_state.md R26: `BUSY` is set only by command start, and cleared only by EXEC and by reset; and each of
them does so. -/
def Obligations.BusyChangesOnlyByStartExecReset : Prop :=
  ∀ s t : State, step s = .next t →
    (s.busy = false → t.busy = true → s.takesWrite 0) ∧
    (s.busy = true → t.busy = false → s.takesExec = true ∨ s.takesReset = true) ∧
    (s.takesWrite 0 → t.busy = true) ∧
    (s.takesExec = true ∨ s.takesReset = true → t.busy = false)

/-- The column 'written by' of 10_state.md R20, and 70_reset_and_hazards.md R193: which steps may change each
item of the block; `epoch` is the model's own (log 6). -/
def Obligations.OnlyNamedWritersChangeState : Prop :=
  ∀ s t : State, step s = .next t → s.takesReset = false →
    (t.width ≠ s.width → s.takesWrite 2) ∧
    (t.height ≠ s.height → s.takesWrite 3) ∧
    (t.blen ≠ s.blen →
      s.takesWrite 4 ∨ (s.takesExec = true ∧ s.op = .pack ∧ s.dimsOk = true)) ∧
    (t.op ≠ s.op → s.takesWrite 0) ∧
    (t.err ≠ s.err → s.takesWrite 0 ∨ s.takesExec = true) ∧
    (t.gm ≠ s.gm →
      (s.busy = false ∧ ∃ r c v, s.takesRequest = some (.wrg r c v)) ∨
        (s.takesExec = true ∧ s.op = .unpack ∧ s.dimsOk = true ∧ s.packedLen ≤ s.len)) ∧
    (t.bm ≠ s.bm →
      (s.busy = false ∧ ∃ k v, s.takesRequest = some (.wrb k v)) ∨
        (s.takesExec = true ∧ s.op = .pack ∧ s.dimsOk = true)) ∧
    t.epoch = s.epoch

/-- The error report lasts until the next command start or reset (60_exceptions.md R167). -/
def Obligations.ErrorReportLasts : Prop :=
  ∀ s t : State, s.busy = false → step s = .next t → s.takesReset = false → ¬ s.takesWrite 0 →
    t.err = s.err ∧ t.op = s.op ∧ t.statusWord = s.statusWord

/-- Every command completes and every run ends (70_reset_and_hazards.md R190, R192): one step more than there
are events leaves no event and no command pending. That EXEC is taken once the events are used up is the
model's reading of weak fairness (log 3). -/
def Obligations.RunsEndIdle : Prop :=
  ∀ s : State, ∃ t, s.runsTo (s.inputs.length + 1) t ∧ t.busy = false ∧ t.inputs = []

/-- The parameters (00_scope.md R6, R7): the table of R6, with the widths of this hardware's words; the machine at
parameters given is there exactly if they meet the constraints of R7, and at the defaults it is the machine of this
hardware; at every such choice every grid and every packed sequence fits; and from a width of 4 on the bound
`LENW >= 2*DIMW - 5` makes every packed length fit. -/
def Obligations.PackedLengthFitsBlen : Prop :=
  (Config.params.xlen = 32 ∧ Config.params.dimw = 8 ∧ Config.params.dmax = 127 ∧
    Config.params.gdim = 128 ∧ Config.params.gaw = 14 ∧ Config.params.ncell = 16384 ∧
    Config.params.nmax = 16129 ∧ Config.params.lenw = 12 ∧ Config.params.nbyte = 4096 ∧
    Config.params.lmax = 2017 ∧ Config.params.aw = 14 ∧ Config.params.addrs = 2 ^ Config.params.aw) ∧
  (Word = BitVec 32 ∧ Dim = BitVec 8 ∧ Len = BitVec 12 ∧ Addr = BitVec 14 ∧ Req = BitVec 49) ∧
  (∀ p : Config.Params, (coreAt p).isSome = p.valid ∧
    (Word p = BitVec p.xlen ∧ Dim p = BitVec p.dimw ∧ Len p = BitVec p.lenw ∧ Addr p = BitVec p.aw ∧
      Req p = BitVec (3 + p.aw + p.xlen))) ∧
  (coreAt Config.params = some Sys2Proof.core ∧ (∀ (i : Instr) (s : State), exec i s = execAt i s) ∧
    (∀ s : State, step s = stepAt s) ∧ State.reset = State.resetAt Config.params) ∧
  (∀ p : Config.Params, p.valid = true → ∀ s : State p, 0 < s.width.toInt → 0 < s.height.toInt →
    s.cols ≤ p.dmax ∧ s.rows ≤ p.dmax ∧ p.dmax < p.gdim ∧ 1 ≤ s.cells ∧ s.cells ≤ p.nmax ∧
    1 ≤ s.packedLen ∧ s.packedLen ≤ p.lmax ∧ p.lmax < p.nbyte ∧
    (BitVec.ofNat p.lenw s.packedLen).toNat = s.packedLen) ∧
  ∀ p : Config.Params, 4 ≤ p.dimw → 2 * p.dimw - 5 ≤ p.lenw →
    p.lmax = 2 ^ (2 * p.dimw - 5) - 2 ^ (p.dimw - 3) + 1 ∧ p.lmax ≤ 2 ^ p.lenw - 1

/-- Two memories in the canonical form that list the same cell under every key are the same data, GM's and BM's
alike: equal memories are equal lists; and different cells of GM have different keys below its size. The form and
the key `128*r + c` are the model's own (log 7). -/
def Obligations.CanonicalMemoriesAreEqual : Prop :=
  (∀ (α : Type) (size : Nat) (m m' : List (Nat × α)),
    Memory.wf size m = true → Memory.wf size m' = true →
    (∀ a, Memory.get? m a = Memory.get? m' a) → m = m') ∧
  ∀ r c r' c' : Nat, r < 128 → c < 128 → r' < 128 → c' < 128 →
    gmKey r c = 128 * r + c ∧ gmKey r c < 16384 ∧ (gmKey r c = gmKey r' c' → r = r' ∧ c = c')
end

