-- ==== Sys2Proof/Laws/State.lean ====
section
/-! SUPPORT. One lemma per field per named update of the state, true by `rfl`, and what the operations that
first look at `BUSY` come to in the two cases. -/

namespace Sys2Proof.Machine

variable {p : Config.Params}

/-! ### `respond` -/

@[simp] theorem State.respond_width (s : State p) (v : Word p) : (s.respond v).width = s.width := rfl
@[simp] theorem State.respond_height (s : State p) (v : Word p) : (s.respond v).height = s.height := rfl
@[simp] theorem State.respond_blen (s : State p) (v : Word p) : (s.respond v).blen = s.blen := rfl
@[simp] theorem State.respond_busy (s : State p) (v : Word p) : (s.respond v).busy = s.busy := rfl
@[simp] theorem State.respond_op (s : State p) (v : Word p) : (s.respond v).op = s.op := rfl
@[simp] theorem State.respond_err (s : State p) (v : Word p) : (s.respond v).err = s.err := rfl
@[simp] theorem State.respond_gm (s : State p) (v : Word p) : (s.respond v).gm = s.gm := rfl
@[simp] theorem State.respond_bm (s : State p) (v : Word p) : (s.respond v).bm = s.bm := rfl
@[simp] theorem State.respond_epoch (s : State p) (v : Word p) : (s.respond v).epoch = s.epoch := rfl
@[simp] theorem State.respond_rdata (s : State p) (v : Word p) : (s.respond v).rdata = some v := rfl
@[simp] theorem State.respond_inputs (s : State p) (v : Word p) : (s.respond v).inputs = s.inputs := rfl
@[simp] theorem State.respond_draws (s : State p) (v : Word p) : (s.respond v).draws = s.draws := rfl
@[simp] theorem State.respond_toBlock (s : State p) (v : Word p) : (s.respond v).toBlock = s.toBlock := rfl

/-! ### `respondAny` -/

@[simp] theorem State.respondAny_width (s : State p) : s.respondAny.width = s.width := rfl
@[simp] theorem State.respondAny_height (s : State p) : s.respondAny.height = s.height := rfl
@[simp] theorem State.respondAny_blen (s : State p) : s.respondAny.blen = s.blen := rfl
@[simp] theorem State.respondAny_busy (s : State p) : s.respondAny.busy = s.busy := rfl
@[simp] theorem State.respondAny_op (s : State p) : s.respondAny.op = s.op := rfl
@[simp] theorem State.respondAny_err (s : State p) : s.respondAny.err = s.err := rfl
@[simp] theorem State.respondAny_gm (s : State p) : s.respondAny.gm = s.gm := rfl
@[simp] theorem State.respondAny_bm (s : State p) : s.respondAny.bm = s.bm := rfl
@[simp] theorem State.respondAny_epoch (s : State p) : s.respondAny.epoch = s.epoch := rfl
@[simp] theorem State.respondAny_rdata (s : State p) : s.respondAny.rdata = some (Config.busyRead p.xlen s.draws) := rfl
@[simp] theorem State.respondAny_inputs (s : State p) : s.respondAny.inputs = s.inputs := rfl
@[simp] theorem State.respondAny_draws (s : State p) : s.respondAny.draws = s.draws + 1 := rfl
@[simp] theorem State.respondAny_toBlock (s : State p) : s.respondAny.toBlock = s.toBlock := rfl

/-! ### `noResponse` -/

@[simp] theorem State.noResponse_width (s : State p) : s.noResponse.width = s.width := rfl
@[simp] theorem State.noResponse_height (s : State p) : s.noResponse.height = s.height := rfl
@[simp] theorem State.noResponse_blen (s : State p) : s.noResponse.blen = s.blen := rfl
@[simp] theorem State.noResponse_busy (s : State p) : s.noResponse.busy = s.busy := rfl
@[simp] theorem State.noResponse_op (s : State p) : s.noResponse.op = s.op := rfl
@[simp] theorem State.noResponse_err (s : State p) : s.noResponse.err = s.err := rfl
@[simp] theorem State.noResponse_gm (s : State p) : s.noResponse.gm = s.gm := rfl
@[simp] theorem State.noResponse_bm (s : State p) : s.noResponse.bm = s.bm := rfl
@[simp] theorem State.noResponse_epoch (s : State p) : s.noResponse.epoch = s.epoch := rfl
@[simp] theorem State.noResponse_rdata (s : State p) : s.noResponse.rdata = none := rfl
@[simp] theorem State.noResponse_inputs (s : State p) : s.noResponse.inputs = s.inputs := rfl
@[simp] theorem State.noResponse_draws (s : State p) : s.noResponse.draws = s.draws := rfl
@[simp] theorem State.noResponse_toBlock (s : State p) : s.noResponse.toBlock = s.toBlock := rfl

/-! ### `startCommand` -/

@[simp] theorem State.startCommand_width (s : State p) (v : Word p) : (s.startCommand v).width = s.width := rfl
@[simp] theorem State.startCommand_height (s : State p) (v : Word p) : (s.startCommand v).height = s.height := rfl
@[simp] theorem State.startCommand_blen (s : State p) (v : Word p) : (s.startCommand v).blen = s.blen := rfl
@[simp] theorem State.startCommand_busy (s : State p) (v : Word p) : (s.startCommand v).busy = true := rfl
@[simp] theorem State.startCommand_op (s : State p) (v : Word p) : (s.startCommand v).op = Command.ofWord v := rfl
@[simp] theorem State.startCommand_err (s : State p) (v : Word p) : (s.startCommand v).err = .none := rfl
@[simp] theorem State.startCommand_gm (s : State p) (v : Word p) : (s.startCommand v).gm = s.gm := rfl
@[simp] theorem State.startCommand_bm (s : State p) (v : Word p) : (s.startCommand v).bm = s.bm := rfl
@[simp] theorem State.startCommand_epoch (s : State p) (v : Word p) : (s.startCommand v).epoch = s.epoch := rfl
@[simp] theorem State.startCommand_rdata (s : State p) (v : Word p) : (s.startCommand v).rdata = s.rdata := rfl
@[simp] theorem State.startCommand_inputs (s : State p) (v : Word p) : (s.startCommand v).inputs = s.inputs := rfl
@[simp] theorem State.startCommand_draws (s : State p) (v : Word p) : (s.startCommand v).draws = s.draws := rfl

/-! ### `fail` -/

@[simp] theorem State.fail_width (s : State p) (e : ErrorCode) : (s.fail e).width = s.width := rfl
@[simp] theorem State.fail_height (s : State p) (e : ErrorCode) : (s.fail e).height = s.height := rfl
@[simp] theorem State.fail_blen (s : State p) (e : ErrorCode) : (s.fail e).blen = s.blen := rfl
@[simp] theorem State.fail_busy (s : State p) (e : ErrorCode) : (s.fail e).busy = false := rfl
@[simp] theorem State.fail_op (s : State p) (e : ErrorCode) : (s.fail e).op = s.op := rfl
@[simp] theorem State.fail_err (s : State p) (e : ErrorCode) : (s.fail e).err = e := rfl
@[simp] theorem State.fail_gm (s : State p) (e : ErrorCode) : (s.fail e).gm = s.gm := rfl
@[simp] theorem State.fail_bm (s : State p) (e : ErrorCode) : (s.fail e).bm = s.bm := rfl
@[simp] theorem State.fail_epoch (s : State p) (e : ErrorCode) : (s.fail e).epoch = s.epoch := rfl
@[simp] theorem State.fail_rdata (s : State p) (e : ErrorCode) : (s.fail e).rdata = s.rdata := rfl
@[simp] theorem State.fail_inputs (s : State p) (e : ErrorCode) : (s.fail e).inputs = s.inputs := rfl
@[simp] theorem State.fail_draws (s : State p) (e : ErrorCode) : (s.fail e).draws = s.draws := rfl

/-! ### `succeed` -/

@[simp] theorem State.succeed_width (s : State p) : s.succeed.width = s.width := rfl
@[simp] theorem State.succeed_height (s : State p) : s.succeed.height = s.height := rfl
@[simp] theorem State.succeed_blen (s : State p) : s.succeed.blen = s.blen := rfl
@[simp] theorem State.succeed_busy (s : State p) : s.succeed.busy = false := rfl
@[simp] theorem State.succeed_op (s : State p) : s.succeed.op = s.op := rfl
@[simp] theorem State.succeed_err (s : State p) : s.succeed.err = .none := rfl
@[simp] theorem State.succeed_gm (s : State p) : s.succeed.gm = s.gm := rfl
@[simp] theorem State.succeed_bm (s : State p) : s.succeed.bm = s.bm := rfl
@[simp] theorem State.succeed_epoch (s : State p) : s.succeed.epoch = s.epoch := rfl
@[simp] theorem State.succeed_rdata (s : State p) : s.succeed.rdata = s.rdata := rfl
@[simp] theorem State.succeed_inputs (s : State p) : s.succeed.inputs = s.inputs := rfl
@[simp] theorem State.succeed_draws (s : State p) : s.succeed.draws = s.draws := rfl

/-! ### `gmWrite` -/

@[simp] theorem State.gmWrite_width (s : State p) (r c : Nat) (b : Bit) : (s.gmWrite r c b).width = s.width := rfl
@[simp] theorem State.gmWrite_height (s : State p) (r c : Nat) (b : Bit) : (s.gmWrite r c b).height = s.height := rfl
@[simp] theorem State.gmWrite_blen (s : State p) (r c : Nat) (b : Bit) : (s.gmWrite r c b).blen = s.blen := rfl
@[simp] theorem State.gmWrite_busy (s : State p) (r c : Nat) (b : Bit) : (s.gmWrite r c b).busy = s.busy := rfl
@[simp] theorem State.gmWrite_op (s : State p) (r c : Nat) (b : Bit) : (s.gmWrite r c b).op = s.op := rfl
@[simp] theorem State.gmWrite_err (s : State p) (r c : Nat) (b : Bit) : (s.gmWrite r c b).err = s.err := rfl
@[simp] theorem State.gmWrite_gm (s : State p) (r c : Nat) (b : Bit) : (s.gmWrite r c b).gm = Memory.set s.gm (gmKey r c p) b := rfl
@[simp] theorem State.gmWrite_bm (s : State p) (r c : Nat) (b : Bit) : (s.gmWrite r c b).bm = s.bm := rfl
@[simp] theorem State.gmWrite_epoch (s : State p) (r c : Nat) (b : Bit) : (s.gmWrite r c b).epoch = s.epoch := rfl
@[simp] theorem State.gmWrite_rdata (s : State p) (r c : Nat) (b : Bit) : (s.gmWrite r c b).rdata = s.rdata := rfl
@[simp] theorem State.gmWrite_inputs (s : State p) (r c : Nat) (b : Bit) : (s.gmWrite r c b).inputs = s.inputs := rfl
@[simp] theorem State.gmWrite_draws (s : State p) (r c : Nat) (b : Bit) : (s.gmWrite r c b).draws = s.draws := rfl

/-! ### `bmWrite` -/

@[simp] theorem State.bmWrite_width (s : State p) (k : Nat) (v : Byte) : (s.bmWrite k v).width = s.width := rfl
@[simp] theorem State.bmWrite_height (s : State p) (k : Nat) (v : Byte) : (s.bmWrite k v).height = s.height := rfl
@[simp] theorem State.bmWrite_blen (s : State p) (k : Nat) (v : Byte) : (s.bmWrite k v).blen = s.blen := rfl
@[simp] theorem State.bmWrite_busy (s : State p) (k : Nat) (v : Byte) : (s.bmWrite k v).busy = s.busy := rfl
@[simp] theorem State.bmWrite_op (s : State p) (k : Nat) (v : Byte) : (s.bmWrite k v).op = s.op := rfl
@[simp] theorem State.bmWrite_err (s : State p) (k : Nat) (v : Byte) : (s.bmWrite k v).err = s.err := rfl
@[simp] theorem State.bmWrite_gm (s : State p) (k : Nat) (v : Byte) : (s.bmWrite k v).gm = s.gm := rfl
@[simp] theorem State.bmWrite_bm (s : State p) (k : Nat) (v : Byte) : (s.bmWrite k v).bm = Memory.set s.bm k v := rfl
@[simp] theorem State.bmWrite_epoch (s : State p) (k : Nat) (v : Byte) : (s.bmWrite k v).epoch = s.epoch := rfl
@[simp] theorem State.bmWrite_rdata (s : State p) (k : Nat) (v : Byte) : (s.bmWrite k v).rdata = s.rdata := rfl
@[simp] theorem State.bmWrite_inputs (s : State p) (k : Nat) (v : Byte) : (s.bmWrite k v).inputs = s.inputs := rfl
@[simp] theorem State.bmWrite_draws (s : State p) (k : Nat) (v : Byte) : (s.bmWrite k v).draws = s.draws := rfl

/-! ### `resetEvent` -/

@[simp] theorem State.resetEvent_width (s : State p) : s.resetEvent.width = 0 := rfl
@[simp] theorem State.resetEvent_height (s : State p) : s.resetEvent.height = 0 := rfl
@[simp] theorem State.resetEvent_blen (s : State p) : s.resetEvent.blen = 0 := rfl
@[simp] theorem State.resetEvent_busy (s : State p) : s.resetEvent.busy = false := rfl
@[simp] theorem State.resetEvent_op (s : State p) : s.resetEvent.op = .pack := rfl
@[simp] theorem State.resetEvent_err (s : State p) : s.resetEvent.err = .none := rfl
@[simp] theorem State.resetEvent_gm (s : State p) : s.resetEvent.gm = [] := rfl
@[simp] theorem State.resetEvent_bm (s : State p) : s.resetEvent.bm = [] := rfl
@[simp] theorem State.resetEvent_epoch (s : State p) : s.resetEvent.epoch = s.epoch + 1 := rfl
@[simp] theorem State.resetEvent_rdata (s : State p) : s.resetEvent.rdata = s.rdata := rfl
@[simp] theorem State.resetEvent_inputs (s : State p) : s.resetEvent.inputs = s.inputs := rfl
@[simp] theorem State.resetEvent_draws (s : State p) : s.resetEvent.draws = s.draws := rfl

/-! ### Operations that look at `BUSY` first -/

theorem State.respondIdle_of_busy {s : State p} (hb : s.busy = true) (v : Word p) :
    s.respondIdle v = s.respondAny := by simp [State.respondIdle, hb]

theorem State.respondIdle_of_idle {s : State p} (hb : s.busy = false) (v : Word p) :
    s.respondIdle v = s.respond v := by simp [State.respondIdle, hb]

@[simp] theorem State.respondIdle_toBlock (s : State p) (v : Word p) :
    (s.respondIdle v).toBlock = s.toBlock := by
  unfold State.respondIdle; split <;> rfl

@[simp] theorem State.respondIdle_inputs (s : State p) (v : Word p) :
    (s.respondIdle v).inputs = s.inputs := by
  unfold State.respondIdle; split <;> rfl

theorem State.hostWrite_of_busy {s : State p} (hb : s.busy = true) (f : State p → State p) :
    s.hostWrite f = s.noResponse := by simp [State.hostWrite, hb]

theorem State.hostWrite_of_idle {s : State p} (hb : s.busy = false) (f : State p → State p) :
    s.hostWrite f = (f s).noResponse := by simp [State.hostWrite, hb]

/-! ### `readRegister` and `writeRegister`, register by register -/

@[simp] theorem State.readRegister_cmd (s : State p) : s.readRegister 0 = s.respond 0 := rfl
@[simp] theorem State.readRegister_status (s : State p) :
    s.readRegister 1 = s.respond s.statusWord := rfl
@[simp] theorem State.readRegister_width (s : State p) :
    s.readRegister 2 = s.respondIdle (dimWord s.width) := rfl
@[simp] theorem State.readRegister_height (s : State p) :
    s.readRegister 3 = s.respondIdle (dimWord s.height) := rfl
@[simp] theorem State.readRegister_blen (s : State p) :
    s.readRegister 4 = s.respondIdle (lenWord s.blen) := rfl

theorem State.readRegister_reserved (s : State p) {n : Nat} (hn : 5 ≤ n) :
    s.readRegister n = s.respond 0 := by
  match n, hn with
  | _ + 5, _ => rfl

/-- A register read writes no state of the block. -/
theorem State.readRegister_toBlock (s : State p) (n : Nat) :
    (s.readRegister n).toBlock = s.toBlock := by
  unfold State.readRegister; split <;> simp

theorem State.readRegister_inputs (s : State p) (n : Nat) :
    (s.readRegister n).inputs = s.inputs := by
  unfold State.readRegister; split <;> simp


@[simp] theorem State.writeRegister_cmd (s : State p) (v : Word p) :
    s.writeRegister 0 v = s.startCommand v := rfl
@[simp] theorem State.writeRegister_status (s : State p) (v : Word p) : s.writeRegister 1 v = s := rfl
@[simp] theorem State.writeRegister_width (s : State p) (v : Word p) :
    s.writeRegister 2 v = { s with width := wordDim v } := rfl
@[simp] theorem State.writeRegister_height (s : State p) (v : Word p) :
    s.writeRegister 3 v = { s with height := wordDim v } := rfl
@[simp] theorem State.writeRegister_blen (s : State p) (v : Word p) :
    s.writeRegister 4 v = { s with blen := wordLen v } := rfl

theorem State.writeRegister_reserved (s : State p) {n : Nat} (hn : 5 ≤ n) (v : Word p) :
    s.writeRegister n v = s := by
  match n, hn with
  | _ + 5, _ => rfl

theorem State.writeRegister_inputs (s : State p) (n : Nat) (v : Word p) :
    (s.writeRegister n v).inputs = s.inputs := by
  unfold State.writeRegister; split <;> rfl

theorem State.writeRegister_gm (s : State p) (n : Nat) (v : Word p) :
    (s.writeRegister n v).gm = s.gm := by
  unfold State.writeRegister; split <;> rfl

theorem State.writeRegister_bm (s : State p) (n : Nat) (v : Word p) :
    (s.writeRegister n v).bm = s.bm := by
  unfold State.writeRegister; split <;> rfl

/-- A data word written as a number is the word. -/
@[simp] theorem dataWord_toNat (v : Word p) : dataWord v.toNat = v := by simp [dataWord]

/-! ### What the readers depend on -/

theorem State.gmRead_congr {s t : State p} (hg : s.gm = t.gm) (he : s.epoch = t.epoch) (r c : Nat) :
    s.gmRead r c = t.gmRead r c := by simp [State.gmRead, hg, he]

theorem State.bmRead_congr {s t : State p} (hb : s.bm = t.bm) (he : s.epoch = t.epoch) (k : Nat) :
    s.bmRead k = t.bmRead k := by simp [State.bmRead, hb, he]

theorem State.cols_congr {s t : State p} (h : s.width = t.width) : s.cols = t.cols := by
  simp [State.cols, State.w, h]

theorem State.rows_congr {s t : State p} (h : s.height = t.height) : s.rows = t.rows := by
  simp [State.rows, State.h, h]

theorem State.statusWord_congr {s t : State p} (he : s.err = t.err) (ho : s.op = t.op)
    (hb : s.busy = t.busy) : s.statusWord = t.statusWord := by
  simp [State.statusWord, he, ho, hb]

end Sys2Proof.Machine
end

