-- ==== Sys2Proof/Laws/Memory.lean ====
section
/-! SUPPORT. The laws of a memory: what a read after a write gives, and that every operation keeps the
canonical form. -/

namespace Sys2Proof.Machine

variable {p : Config.Params}

variable {α : Type}

/-- All of `set`: the written key reads as the written value, every other key as before. -/
theorem Memory.get?_set (m : List (Nat × α)) (a : Nat) (v : α) (b : Nat) :
    Memory.get? (Memory.set m a v) b = if b = a then some v else Memory.get? m b := by
  induction m with
  | nil => simp [Memory.set, Memory.get?, eq_comm]
  | cons p rest ih =>
    obtain ⟨k, u⟩ := p
    simp only [Memory.set]
    split
    · simp [Memory.get?, eq_comm]
    · split
      · subst a
        by_cases h : k = b <;> simp [Memory.get?, h, Ne.symm]
      · by_cases h : k = b
        · subst k
          have : ¬ b = a := by omega
          simp [Memory.get?, this]
        · simp [Memory.get?, h, ih]

/-- All of `setAll`: a key the writes name reads as written, every other key as before. -/
theorem Memory.get?_setAll (m l : List (Nat × α)) (b : Nat) :
    Memory.get? (Memory.setAll m l) b = (Memory.get? l b).or (Memory.get? m b) := by
  induction l with
  | nil => simp [Memory.setAll, Memory.get?]
  | cons p rest ih =>
    obtain ⟨a, v⟩ := p
    simp only [Memory.setAll, Memory.get?_set, ih, Memory.get?]
    by_cases h : a = b
    · simp [h]
    · simp [h, Ne.symm h]

/-- A list of entries with distinct keys, read at one of them. -/
theorem Memory.get?_map_of_inj (key : Nat → Nat) (f : Nat → α) (n i : Nat) (hi : i < n)
    (inj : ∀ j, j < n → key j = key i → j = i) :
    Memory.get? ((List.range n).map fun j => (key j, f j)) (key i) = some (f i) := by
  have gen : ∀ l : List Nat, (∀ j ∈ l, j < n) → i ∈ l →
      Memory.get? (l.map fun j => (key j, f j)) (key i) = some (f i) := by
    intro l
    induction l with
    | nil => simp
    | cons j rest ih =>
      intro hl hm
      simp only [List.map_cons, Memory.get?]
      by_cases h : key j = key i
      · have := inj j (hl j (by simp)) h
        simp [this]
      · simp only [h, if_false]
        refine ih (fun x hx => hl x (by simp [hx])) ?_
        rcases List.mem_cons.mp hm with rfl | h'
        · exact absurd rfl h
        · exact h'
  exact gen _ (fun j hj => List.mem_range.mp hj) (List.mem_range.mpr hi)

/-- A list of entries, read at a key none of them has. -/
theorem Memory.get?_map_of_notMem (key : Nat → Nat) (f : Nat → α) (l : List Nat) (a : Nat)
    (h : ∀ j ∈ l, key j ≠ a) : Memory.get? (l.map fun j => (key j, f j)) a = none := by
  induction l with
  | nil => rfl
  | cons j rest ih =>
    simp only [List.map_cons, Memory.get?, h j (by simp), if_false]
    exact ih fun x hx => h x (by simp [hx])

/-- The entries of keys 0 to `n - 1`. -/
theorem Memory.get?_range (f : Nat → α) (n a : Nat) :
    Memory.get? ((List.range n).map fun k => (k, f k)) a = if a < n then some (f a) else none := by
  split
  · next h => exact Memory.get?_map_of_inj id f n a h fun j _ hj => hj
  · next h =>
    exact Memory.get?_map_of_notMem id f _ a fun j hj => by
      have := List.mem_range.mp hj
      simp only [id]
      omega

theorem Memory.all_lt_set {k a : Nat} (hka : k < a) (v : α) :
    ∀ m : List (Nat × α), m.all (fun p => decide (k < p.1)) = true →
      (Memory.set m a v).all (fun p => decide (k < p.1)) = true
  | [], _ => by simp [Memory.set, hka]
  | (j, u) :: rest, h => by
    simp only [List.all_cons, Bool.and_eq_true, decide_eq_true_eq] at h
    simp only [Memory.set]
    split
    · simp only [List.all_cons, Bool.and_eq_true, decide_eq_true_eq]
      exact ⟨hka, h.1, h.2⟩
    · split
      · simp only [List.all_cons, Bool.and_eq_true, decide_eq_true_eq]
        exact ⟨hka, h.2⟩
      · simp only [List.all_cons, Bool.and_eq_true, decide_eq_true_eq]
        exact ⟨h.1, Memory.all_lt_set hka v rest h.2⟩

/-- A write keeps the canonical form. -/
theorem Memory.wf_set {size a : Nat} (ha : a < size) (v : α) :
    ∀ m : List (Nat × α), Memory.wf size m = true → Memory.wf size (Memory.set m a v) = true
  | [], _ => by simp [Memory.set, Memory.wf, ha]
  | (k, u) :: rest, h => by
    simp only [Memory.wf, Bool.and_eq_true, decide_eq_true_eq] at h
    obtain ⟨⟨hk, hall⟩, hr⟩ := h
    simp only [Memory.set]
    split
    · next hak =>
      simp only [Memory.wf, List.all_cons, Bool.and_eq_true, decide_eq_true_eq]
      refine ⟨⟨ha, hak, ?_⟩, ⟨hk, hall⟩, hr⟩
      rw [List.all_eq_true] at hall ⊢
      intro p hp
      have := hall p hp
      simp only [decide_eq_true_eq] at this ⊢
      omega
    · split
      · next hak =>
        subst hak
        simp only [Memory.wf, Bool.and_eq_true, decide_eq_true_eq]
        exact ⟨⟨ha, hall⟩, hr⟩
      · simp only [Memory.wf, Bool.and_eq_true, decide_eq_true_eq]
        exact ⟨⟨hk, Memory.all_lt_set (by omega) v rest hall⟩, Memory.wf_set ha v rest hr⟩

/-- A list of writes keeps the canonical form. -/
theorem Memory.wf_setAll {size : Nat} (m : List (Nat × α)) (hm : Memory.wf size m = true) :
    ∀ l : List (Nat × α), (∀ p ∈ l, p.1 < size) → Memory.wf size (Memory.setAll m l) = true
  | [], _ => hm
  | (a, v) :: rest, h =>
    Memory.wf_set (h (a, v) (by simp)) v _
      (Memory.wf_setAll m hm rest fun p hp => h p (by simp [hp]))

/-- Reading GM after a list of writes. -/
theorem State.gmRead_setAll (s : State p) (l : List (Nat × Bit)) (r c : Nat) :
    State.gmRead { s with gm := Memory.setAll s.gm l } r c =
      (Memory.get? l (gmKey r c p)).getD (s.gmRead r c) := by
  simp only [State.gmRead, Memory.get?_setAll]
  cases Memory.get? l (gmKey r c p) <;> simp

/-- Reading BM after a list of writes. -/
theorem State.bmRead_setAll (s : State p) (l : List (Nat × Byte)) (k : Nat) :
    State.bmRead { s with bm := Memory.setAll s.bm l } k =
      (Memory.get? l k).getD (s.bmRead k) := by
  simp only [State.bmRead, Memory.get?_setAll]
  cases Memory.get? l k <;> simp

/-- Reading GM after the write of one cell. -/
theorem State.gmRead_gmWrite (s : State p) (r c : Nat) (b : Bit) (r' c' : Nat) :
    (s.gmWrite r c b).gmRead r' c' = if gmKey r' c' p = gmKey r c p then b else s.gmRead r' c' := by
  simp only [State.gmRead, State.gmWrite, Memory.get?_set]
  split <;> simp

/-- Reading BM after the write of one byte. -/
theorem State.bmRead_bmWrite (s : State p) (k : Nat) (v : Byte) (k' : Nat) :
    (s.bmWrite k v).bmRead k' = if k' = k then v else s.bmRead k' := by
  simp only [State.bmRead, State.bmWrite, Memory.get?_set]
  split <;> simp

/-- Two cells of GM with one key are one cell. -/
theorem gmKey_inj {r c r' c' : Nat} (hc : c < p.gdim) (hc' : c' < p.gdim)
    (h : gmKey r c p = gmKey r' c' p) : r = r' ∧ c = c' := by
  simp only [gmKey] at h
  have hpos : 0 < p.gdim := by omega
  have hd := congrArg (· / p.gdim) h
  have hm := congrArg (· % p.gdim) h
  simp only [Nat.mul_add_div hpos, Nat.div_eq_of_lt hc, Nat.div_eq_of_lt hc', Nat.mul_add_mod,
    Nat.mod_eq_of_lt hc, Nat.mod_eq_of_lt hc', Nat.add_zero] at hd hm
  exact ⟨hd, hm⟩

/-- GM has `GDIM` rows of `GDIM` cells. -/
theorem gdim_mul_gdim (p : Config.Params) : p.gdim * p.gdim = p.ncell := by
  rw [Config.Params.gdim, Config.Params.ncell, Config.Params.gaw, ← pow_add]
  congr 1
  omega

theorem gmKey_lt {r c : Nat} (hr : r < p.gdim) (hc : c < p.gdim) : gmKey r c p < p.ncell := by
  rw [← gdim_mul_gdim, gmKey]
  have h := Nat.mul_le_mul_left p.gdim (Nat.succ_le_of_lt hr)
  rw [Nat.succ_eq_add_one, Nat.mul_add, Nat.mul_one] at h
  omega

end Sys2Proof.Machine
end

