-- ==== Sys2Proof/Laws/Bits.lean ====
section
/-! SUPPORT. The lanes of a packed byte, and the bounds of the quantities a command computes (00_scope.md
R11). -/

namespace Sys2Proof.Machine

variable {p : Config.Params}

theorem bit_eq_iff {a b : Bit} : a = b ↔ a.getLsbD 0 = b.getLsbD 0 := by
  refine ⟨fun h => h ▸ rfl, fun h => ?_⟩
  apply BitVec.eq_of_getLsbD_eq
  intro i hi
  obtain rfl : i = 0 := by omega
  exact h

/-- Lane `i` of a packed byte is the bit put there, and only that bit. -/
theorem joinBits_getLsbD (b : Nat → Bit) {i : Nat} (hi : i < 8) :
    (joinBits b).getLsbD i = (b i).getLsbD 0 := by
  unfold joinBits
  interval_cases i <;> simp only [BitVec.getLsbD_append] <;> rfl

theorem byteBit_getLsbD (v : Byte) (i : Nat) : (byteBit v i).getLsbD 0 = v.getLsbD i := by
  simp [byteBit]

@[simp] theorem byteBit_joinBits (b : Nat → Bit) {i : Nat} (hi : i < 8) :
    byteBit (joinBits b) i = b i := by
  rw [bit_eq_iff, byteBit_getLsbD, joinBits_getLsbD b hi]

/-- A byte is the join of its own bits. -/
@[simp] theorem joinBits_byteBit (v : Byte) : joinBits (byteBit v) = v := by
  apply BitVec.eq_of_getLsbD_eq
  intro i hi
  rw [joinBits_getLsbD _ hi, byteBit_getLsbD]

theorem joinBits_congr {a b : Nat → Bit} (h : ∀ i, i < 8 → a i = b i) : joinBits a = joinBits b := by
  apply BitVec.eq_of_getLsbD_eq
  intro i hi
  rw [joinBits_getLsbD _ hi, joinBits_getLsbD _ hi, h i hi]

/-! ### Bounds -/

theorem State.dimsOk_iff (s : State p) : s.dimsOk = true ↔ 0 < s.w ∧ 0 < s.h := by
  simp [State.dimsOk]

theorem State.dimsOk_eq_false (s : State p) : s.dimsOk = false ↔ s.w ≤ 0 ∨ s.h ≤ 0 := by
  rw [← Bool.not_eq_true, State.dimsOk_iff]
  omega

theorem State.w_le (s : State p) : s.w ≤ p.dmax := by
  have h := BitVec.toInt_lt (x := s.width)
  have h1 := Nat.one_le_two_pow (n := p.dimw - 1)
  have e : ((2 ^ (p.dimw - 1) : Nat) : Int) = (2 : Int) ^ (p.dimw - 1) := by norm_cast
  simp only [State.w, Config.Params.dmax]
  omega

theorem State.h_le (s : State p) : s.h ≤ p.dmax := by
  have h := BitVec.toInt_lt (x := s.height)
  have h1 := Nat.one_le_two_pow (n := p.dimw - 1)
  have e : ((2 ^ (p.dimw - 1) : Nat) : Int) = (2 : Int) ^ (p.dimw - 1) := by norm_cast
  simp only [State.h, Config.Params.dmax]
  omega

/-- `DMAX < GDIM` (00_scope.md R7). -/
theorem dmax_lt_gdim (p : Config.Params) : p.dmax < p.gdim := by
  have h := Nat.one_le_two_pow (n := p.dimw - 1)
  simp only [Config.Params.dmax, Config.Params.gdim]
  omega

theorem State.cols_le (s : State p) : s.cols ≤ p.dmax := by
  have := s.w_le
  simp only [State.cols]
  omega

theorem State.rows_le (s : State p) : s.rows ≤ p.dmax := by
  have := s.h_le
  simp only [State.rows]
  omega

theorem State.cols_lt (s : State p) : s.cols < p.gdim := lt_of_le_of_lt s.cols_le (dmax_lt_gdim p)

theorem State.rows_lt (s : State p) : s.rows < p.gdim := lt_of_le_of_lt s.rows_le (dmax_lt_gdim p)

theorem State.cols_pos {s : State p} (h : s.dimsOk = true) : 0 < s.cols := by
  have := (s.dimsOk_iff.mp h).1
  simp only [State.cols]
  omega

theorem State.rows_pos {s : State p} (h : s.dimsOk = true) : 0 < s.rows := by
  have := (s.dimsOk_iff.mp h).2
  simp only [State.rows]
  omega

theorem State.cells_le_nmax (s : State p) : s.cells ≤ p.nmax := Nat.mul_le_mul s.cols_le s.rows_le

theorem State.packedLen_le_lmax (s : State p) : s.packedLen ≤ p.lmax := by
  have := s.cells_le_nmax
  simp only [State.packedLen, ceil8, Config.Params.lmax]
  omega

/-- What the constraints of 00_scope.md R7 say, one by one. -/
theorem valid_iff (p : Config.Params) : p.valid = true ↔
    2 ≤ p.dimw ∧ 1 ≤ p.lenw ∧ (p.dimw ≤ p.xlen ∧ p.lenw ≤ p.xlen ∧ 4 ≤ p.xlen) ∧ p.lmax < p.nbyte := by
  have h := Nat.one_le_two_pow (n := p.lenw)
  simp only [Config.Params.valid, Config.Params.nbyte, Bool.and_eq_true, decide_eq_true_eq, and_assoc]
  omega

@[simp] theorem params_valid : Config.params.valid = true := by decide

/-- Every length PACK can produce fits in BLEN (00_scope.md R7). -/
theorem State.packedLen_lt (hp : p.valid = true) (s : State p) : s.packedLen < p.nbyte :=
  lt_of_le_of_lt s.packedLen_le_lmax ((valid_iff p).mp hp).2.2.2

theorem State.packedLen_toNat (hp : p.valid = true) (s : State p) :
    (BitVec.ofNat p.lenw s.packedLen).toNat = s.packedLen := by
  rw [BitVec.toNat_ofNat]
  exact Nat.mod_eq_of_lt (s.packedLen_lt hp)

theorem State.cells_le (s : State) : s.cells ≤ 16129 := s.cells_le_nmax

theorem State.packedLen_le (s : State) : s.packedLen ≤ 2017 := s.packedLen_le_lmax

/-- Row and column of a flat index below `N` lie in the corner. -/
theorem State.corner_of_lt {s : State p} {n : Nat} (hn : n < s.cells) :
    n / s.cols < s.rows ∧ n % s.cols < s.cols := by
  have hc : 0 < s.cols := by
    rcases Nat.eq_zero_or_pos s.cols with h | h
    · simp [State.cells, h] at hn
    · exact h
  exact ⟨Nat.div_lt_of_lt_mul hn, Nat.mod_lt _ hc⟩

/-- The flat index of a cell of the corner is below `N`. -/
theorem State.flat_lt {s : State p} {r c : Nat} (hr : r < s.rows) (hc : c < s.cols) :
    r * s.cols + c < s.cells := by
  have h1 : r * s.cols + c < (r + 1) * s.cols := by rw [Nat.succ_mul]; omega
  have h2 : (r + 1) * s.cols ≤ s.rows * s.cols := Nat.mul_le_mul_right _ hr
  have h3 : s.rows * s.cols = s.cells := Nat.mul_comm _ _
  omega

end Sys2Proof.Machine
end

