-- ==== Sys2Proof/Laws/Config.lean ====
section
/-! SUPPORT. The derived sizes at the default parameters: the default column of the table of 00_scope.md R6. -/

namespace Sys2Proof.Config

@[simp] theorem params_dmax : params.dmax = 127 := rfl
@[simp] theorem params_gdim : params.gdim = 128 := rfl
@[simp] theorem params_gaw : params.gaw = 14 := rfl
@[simp] theorem params_ncell : params.ncell = 16384 := rfl
@[simp] theorem params_nmax : params.nmax = 16129 := rfl
@[simp] theorem params_nbyte : params.nbyte = 4096 := rfl
@[simp] theorem params_lmax : params.lmax = 2017 := rfl
@[simp] theorem params_aw : params.aw = 14 := rfl
@[simp] theorem params_addrs : params.addrs = 16384 := rfl

end Sys2Proof.Config
end

