-- ==== Sys2Proof/Laws/Encoding.lean ====
section
/-! SUPPORT. The fields of a request word and of a GM address, read out of the word they were put into, and
put back together, at any parameters. -/

namespace Sys2Proof

variable {p : Config.Params}

@[simp] theorem reqSel_reqWord (sel : BitVec 3) (a : Addr p) (v : Word p) :
    reqSel (reqWord sel a v) = sel := by
  apply BitVec.eq_of_getLsbD_eq
  intro i hi
  have h1 : ¬ p.aw + p.xlen + i < p.xlen := by omega
  have h2 : ¬ p.aw + p.xlen + i - p.xlen < p.aw := by omega
  have h3 : p.aw + p.xlen + i - p.xlen - p.aw = i := by omega
  simp only [reqSel, reqWord, BitVec.getLsbD_extractLsb', BitVec.getLsbD_append, hi, h1, h2, h3]
  simp

@[simp] theorem reqAddr_reqWord (sel : BitVec 3) (a : Addr p) (v : Word p) :
    reqAddr (reqWord sel a v) = a := by
  apply BitVec.eq_of_getLsbD_eq
  intro i hi
  simp only [reqAddr, reqWord, BitVec.getLsbD_extractLsb', BitVec.getLsbD_append, hi]
  simp [hi]

@[simp] theorem reqData_reqWord (sel : BitVec 3) (a : Addr p) (v : Word p) :
    reqData (reqWord sel a v) = v := by
  apply BitVec.eq_of_getLsbD_eq
  intro i hi
  simp only [reqData, reqWord, BitVec.getLsbD_extractLsb', BitVec.getLsbD_append, hi]
  simp [hi]

/-- A request word is put together of its three fields. -/
theorem reqWord_fields (req : Req p) : reqWord (reqSel req) (reqAddr req) (reqData req) = req := by
  apply BitVec.eq_of_getLsbD_eq
  intro i hi
  simp only [reqSel, reqAddr, reqData, reqWord, BitVec.getLsbD_extractLsb', BitVec.getLsbD_append]
  by_cases h1 : i < p.xlen
  · simp [h1]
  · by_cases h2 : i - p.xlen < p.aw
    · have : p.xlen + (i - p.xlen) = i := by omega
      simp [h1, h2, this]
    · have h3 : i - p.xlen - p.aw < 3 := by omega
      have : p.aw + p.xlen + (i - p.xlen - p.aw) = i := by omega
      simp [h1, h2, h3, this]

/-- A request word encoded from the number of its data word. -/
@[simp] theorem encodeReq_toNat (sel : BitVec 3) (a : Addr p) (v : Word p) :
    encodeReq sel a v.toNat = .hreq (reqWord sel a v) := by simp [encodeReq]

theorem gdim_pos (p : Config.Params) : 0 < p.gdim := Nat.two_pow_pos _

/-- A GM address whose value fits is `GDIM*r + c` (30_encoding.md R79). -/
theorem gmAddr_toNat {r c : Nat} (h : p.gdim * r + c < p.addrs) :
    (gmAddr r c p).toNat = p.gdim * r + c := by
  rw [gmAddr, BitVec.toNat_ofNat]
  exact Nat.mod_eq_of_lt h

theorem addrRow_gmAddr {r c : Nat} (h : p.gdim * r + c < p.addrs) (hc : c < p.gdim) :
    addrRow (gmAddr r c p) = r := by
  rw [addrRow, gmAddr_toNat h, Nat.mul_add_div (gdim_pos p), Nat.div_eq_of_lt hc, Nat.add_zero]

theorem addrCol_gmAddr {r c : Nat} (h : p.gdim * r + c < p.addrs) (hc : c < p.gdim) :
    addrCol (gmAddr r c p) = c := by
  rw [addrCol, gmAddr_toNat h, Nat.mul_add_mod, Nat.mod_eq_of_lt hc]

/-- A GM address is put together of its row and its column. -/
theorem gmAddr_fields (a : Addr p) : gmAddr (addrRow a) (addrCol a) p = a := by
  rw [gmAddr, addrRow, addrCol, Nat.div_add_mod, BitVec.ofNat_toNat, BitVec.setWidth_eq]

/-- Row and column of an address give its value back. -/
theorem addrRow_addrCol (a : Addr p) : p.gdim * addrRow a + addrCol a = a.toNat := Nat.div_add_mod _ _

theorem addrCol_lt (a : Addr p) : addrCol a < p.gdim := Nat.mod_lt _ (gdim_pos p)

/-- On this hardware row and column fit 7 bits each, and every GM address is in range (20_memory.md R52). -/
theorem gmAddr_fits {r c : Nat} (hr : r < 128) (hc : c < 128) :
    Config.params.gdim * r + c < Config.params.addrs := by
  have h1 : Config.params.gdim = 128 := rfl
  have h2 : Config.params.addrs = 16384 := rfl
  rw [h1, h2]
  omega

theorem addrRow_lt (a : Addr) : addrRow a < 128 := by
  have h := a.isLt
  have h1 : Config.params.gdim = 128 := rfl
  have h2 : 2 ^ Config.params.aw = 16384 := rfl
  rw [addrRow, h1]
  omega

end Sys2Proof
end

