-- ==== Sys2Proof/Laws/Exec.lean ====
section
/-! SUPPORT. What each meaning can do, said once: the inversion of PACK and UNPACK, the content of the
memories after them, and what a step comes to for each event. -/

namespace Sys2Proof.Machine

variable {p : Config.Params}

/-! ### PACK -/

/-- Everything the EXEC step of PACK can do. -/
theorem execPack_cases {s t : State p} (h : execPack s = .next t) :
    (s.execEnabled .pack = false ∧ t = s) ∨
    (s.execEnabled .pack = true ∧ s.dimsOk = false ∧ t = s.fail .dimensionMismatch) ∨
    (s.execEnabled .pack = true ∧ s.dimsOk = true ∧ t = packResult s) := by
  simp only [execPack, Host.Outcome.next.injEq] at h
  split at h
  · split at h
    · exact .inr (.inr ⟨‹_›, ‹_›, h.symm⟩)
    · exact .inr (.inl ⟨‹_›, Bool.eq_false_iff.mpr ‹¬ _›, h.symm⟩)
  · exact .inl ⟨Bool.eq_false_iff.mpr ‹¬ _›, h.symm⟩

/-- BM after a successful PACK. -/
theorem packResult_bmRead (s : State p) (k : Nat) :
    (packResult s).bmRead k = if k < s.packedLen then packByte s k else s.bmRead k := by
  have h : (packResult s).bmRead k =
      State.bmRead { s with bm := Memory.setAll s.bm (packWrites s) } k :=
    State.bmRead_congr rfl rfl k
  rw [h, State.bmRead_setAll, packWrites, Memory.get?_range]
  split <;> rfl

@[simp] theorem packResult_width (s : State p) : (packResult s).width = s.width := rfl
@[simp] theorem packResult_height (s : State p) : (packResult s).height = s.height := rfl
@[simp] theorem packResult_blen (s : State p) :
    (packResult s).blen = BitVec.ofNat p.lenw s.packedLen := rfl
@[simp] theorem packResult_busy (s : State p) : (packResult s).busy = false := rfl
@[simp] theorem packResult_op (s : State p) : (packResult s).op = s.op := rfl
@[simp] theorem packResult_err (s : State p) : (packResult s).err = .none := rfl
@[simp] theorem packResult_gm (s : State p) : (packResult s).gm = s.gm := rfl
@[simp] theorem packResult_bm (s : State p) :
    (packResult s).bm = Memory.setAll s.bm (packWrites s) := rfl
@[simp] theorem packResult_epoch (s : State p) : (packResult s).epoch = s.epoch := rfl
@[simp] theorem packResult_rdata (s : State p) : (packResult s).rdata = s.rdata := rfl
@[simp] theorem packResult_inputs (s : State p) : (packResult s).inputs = s.inputs := rfl
@[simp] theorem packResult_draws (s : State p) : (packResult s).draws = s.draws := rfl

theorem packWrites_lt (hp : p.valid = true) (s : State p) : ∀ e ∈ packWrites s, e.1 < p.nbyte := by
  intro e he
  simp only [packWrites, List.mem_map, List.mem_range] at he
  obtain ⟨k, hk, rfl⟩ := he
  exact lt_trans hk (s.packedLen_lt hp)

/-! ### UNPACK -/

/-- Everything the EXEC step of UNPACK can do. -/
theorem execUnpack_cases {s t : State p} (h : execUnpack s = .next t) :
    (s.execEnabled .unpack = false ∧ t = s) ∨
    (s.execEnabled .unpack = true ∧ s.dimsOk = false ∧ t = s.fail .dimensionMismatch) ∨
    (s.execEnabled .unpack = true ∧ s.dimsOk = true ∧ s.len < s.packedLen ∧
      t = s.fail .insufficientData) ∨
    (s.execEnabled .unpack = true ∧ s.dimsOk = true ∧ s.packedLen ≤ s.len ∧ t = unpackResult s) := by
  simp only [execUnpack, Host.Outcome.next.injEq] at h
  split at h
  · split at h
    · split at h
      · exact .inr (.inr (.inl ⟨‹_›, ‹_›, ‹_›, h.symm⟩))
      · exact .inr (.inr (.inr ⟨‹_›, ‹_›, Nat.le_of_not_lt ‹_›, h.symm⟩))
    · exact .inr (.inl ⟨‹_›, Bool.eq_false_iff.mpr ‹¬ _›, h.symm⟩)
  · exact .inl ⟨Bool.eq_false_iff.mpr ‹¬ _›, h.symm⟩

/-- The corner of GM after a successful UNPACK. -/
theorem unpackResult_gmRead_corner (s : State p) {r c : Nat} (hr : r < s.rows) (hc : c < s.cols) :
    (unpackResult s).gmRead r c = unpackBit s (r * s.cols + c) := by
  have h : (unpackResult s).gmRead r c =
      State.gmRead { s with gm := Memory.setAll s.gm (unpackWrites s) } r c :=
    State.gmRead_congr rfl rfl r c
  have hpos : 0 < s.cols := by omega
  have hdiv : (r * s.cols + c) / s.cols = r := by
    rw [Nat.mul_comm, Nat.mul_add_div hpos, Nat.div_eq_of_lt hc, Nat.add_zero]
  have hmod : (r * s.cols + c) % s.cols = c := by
    rw [Nat.mul_comm, Nat.mul_add_mod, Nat.mod_eq_of_lt hc]
  have hw := s.cols_lt
  have key := Memory.get?_map_of_inj (fun n => gmKey (n / s.cols) (n % s.cols) p) (unpackBit s)
    s.cells (r * s.cols + c) (State.flat_lt hr hc) (by
      intro j hj hk
      have hj' := State.corner_of_lt hj
      have := gmKey_inj (lt_trans hj'.2 hw) (lt_trans (Nat.mod_lt _ hpos) hw) hk
      rw [hdiv, hmod] at this
      rw [← Nat.div_add_mod j s.cols, this.1, this.2, Nat.mul_comm])
  simp only [hdiv, hmod] at key
  rw [h, State.gmRead_setAll, unpackWrites, key]
  rfl

/-- The cells outside the corner after a successful UNPACK. -/
theorem unpackResult_gmRead_outside (s : State p) {r c : Nat} (hrange : c < p.gdim)
    (h : s.rows ≤ r ∨ s.cols ≤ c) : (unpackResult s).gmRead r c = s.gmRead r c := by
  have h' : (unpackResult s).gmRead r c =
      State.gmRead { s with gm := Memory.setAll s.gm (unpackWrites s) } r c :=
    State.gmRead_congr rfl rfl r c
  have hw := s.cols_lt
  rw [h', State.gmRead_setAll, unpackWrites,
    Memory.get?_map_of_notMem (fun n => gmKey (n / s.cols) (n % s.cols) p) (unpackBit s)]
  · rfl
  · intro j hj hk
    have hj' := State.corner_of_lt (List.mem_range.mp hj)
    have := gmKey_inj (lt_trans hj'.2 hw) hrange hk
    omega

@[simp] theorem unpackResult_width (s : State p) : (unpackResult s).width = s.width := rfl
@[simp] theorem unpackResult_height (s : State p) : (unpackResult s).height = s.height := rfl
@[simp] theorem unpackResult_blen (s : State p) : (unpackResult s).blen = s.blen := rfl
@[simp] theorem unpackResult_busy (s : State p) : (unpackResult s).busy = false := rfl
@[simp] theorem unpackResult_op (s : State p) : (unpackResult s).op = s.op := rfl
@[simp] theorem unpackResult_err (s : State p) : (unpackResult s).err = .none := rfl
@[simp] theorem unpackResult_gm (s : State p) :
    (unpackResult s).gm = Memory.setAll s.gm (unpackWrites s) := rfl
@[simp] theorem unpackResult_bm (s : State p) : (unpackResult s).bm = s.bm := rfl
@[simp] theorem unpackResult_epoch (s : State p) : (unpackResult s).epoch = s.epoch := rfl
@[simp] theorem unpackResult_rdata (s : State p) : (unpackResult s).rdata = s.rdata := rfl
@[simp] theorem unpackResult_inputs (s : State p) : (unpackResult s).inputs = s.inputs := rfl
@[simp] theorem unpackResult_draws (s : State p) : (unpackResult s).draws = s.draws := rfl

theorem unpackWrites_lt (s : State p) : ∀ e ∈ unpackWrites s, e.1 < p.ncell := by
  intro e he
  simp only [unpackWrites, List.mem_map, List.mem_range] at he
  obtain ⟨n, hn, rfl⟩ := he
  have h := State.corner_of_lt hn
  exact gmKey_lt (lt_trans h.1 s.rows_lt) (lt_trans h.2 s.cols_lt)

/-! ### The canonical form is kept by every operation on a memory -/

theorem State.memWf_gmWrite {s : State p} (h : s.memWf) {r c : Nat} (hin : gmInRange r c p = true)
    (b : Bit) : (s.gmWrite r c b).memWf := by
  simp only [gmInRange, Bool.and_eq_true, decide_eq_true_eq] at hin
  exact ⟨Memory.wf_set (gmKey_lt hin.1 hin.2) b s.gm h.1, h.2⟩

theorem State.memWf_bmWrite {s : State p} (h : s.memWf) {k : Nat} (hk : k < p.nbyte) (v : Byte) :
    (s.bmWrite k v).memWf := ⟨h.1, Memory.wf_set hk v s.bm h.2⟩

theorem State.memWf_packResult (hp : p.valid = true) {s : State p} (h : s.memWf) : (packResult s).memWf :=
  ⟨h.1, Memory.wf_setAll s.bm h.2 _ (packWrites_lt hp s)⟩

theorem State.memWf_unpackResult {s : State p} (h : s.memWf) : (unpackResult s).memWf :=
  ⟨Memory.wf_setAll s.gm h.1 _ (unpackWrites_lt s), h.2⟩

theorem State.memWf_resetEvent (s : State p) : s.resetEvent.memWf := ⟨rfl, rfl⟩

/-- Memory is canonical right after reset. -/
theorem State.memWf_resetAt (p : Config.Params) : (State.resetAt p).memWf := ⟨rfl, rfl⟩

theorem State.memWf_reset : State.reset.memWf := State.memWf_resetAt _

/-! ### What a step comes to, event by event -/

/-- The command word of a command decodes to its instruction. -/
theorem decodeCmd_word (hx : 0 < p.xlen) (c : Command) :
    decodeCmd (c.word (p := p)) = commandInstr c := by
  cases c <;> simp [decodeCmd, Command.word, Command.bit, commandInstr, hx]

theorem fetch_request {s : State p} {req : Req p} {rest : List (Event p)}
    (h : s.inputs = .request req :: rest) :
    fetch s = .run (decodeReq req) { s with inputs := rest } := by
  simp [fetch, h]

theorem fetch_reset {s : State p} {rest : List (Event p)} (h : s.inputs = .reset :: rest) :
    fetch s = .done (State.resetEvent { s with inputs := rest }) := by
  simp [fetch, h]

theorem fetch_exec {s : State p} {rest : List (Event p)} (h : s.inputs = .exec :: rest) :
    fetch s = bpuTurn { s with inputs := rest } := by
  simp [fetch, h]

theorem fetch_nil {s : State p} (h : s.inputs = []) : fetch s = bpuTurn s := by
  simp [fetch, h]

theorem bpuTurn_of_busy {s : State p} (h : s.busy = true) :
    bpuTurn s = .run (decodeCmd (s.op.word (p := p))) s := by
  simp [bpuTurn, h]

theorem bpuTurn_of_idle {s : State p} (h : s.busy = false) : bpuTurn s = .done s := by
  simp [bpuTurn, h]

/-- Everything a step can do, at any parameters: perform a request, perform the pending command, or end in the
state given. -/
theorem stepAt_cases {s t : State p} (h : stepAt s = .next t) :
    (∃ req rest, s.inputs = .request req :: rest ∧
      execAt (decodeReq req) { s with inputs := rest } = .next t) ∨
    (s.takesExec = true ∧
      execAt (decodeCmd (s.op.word (p := p))) { s with inputs := s.inputs.tail } = .next t) ∨
    (∃ rest, s.inputs = .reset :: rest ∧ t = State.resetEvent { s with inputs := rest }) ∨
    (s.busy = false ∧ (s.inputs = [] ∨ s.inputs.head? = some .exec) ∧
      t = { s with inputs := s.inputs.tail }) := by
  unfold stepAt at h
  match hi : s.inputs with
  | [] =>
    have hs : ({ s with inputs := [] } : State p) = s := by cases s; simp_all
    by_cases hb : s.busy = true
    · rw [fetch_nil hi, bpuTurn_of_busy hb] at h
      exact .inr (.inl ⟨by simp [State.takesExec, hb, hi], by simpa [hs] using h⟩)
    · simp only [Bool.not_eq_true] at hb
      rw [fetch_nil hi, bpuTurn_of_idle hb] at h
      simp only [Host.Outcome.next.injEq] at h
      exact .inr (.inr (.inr ⟨hb, .inl rfl, by subst h; exact hs.symm⟩))
  | .request req :: rest =>
    rw [fetch_request hi] at h
    exact .inl ⟨req, rest, rfl, h⟩
  | .reset :: rest =>
    rw [fetch_reset hi] at h
    simp only [Host.Outcome.next.injEq] at h
    exact .inr (.inr (.inl ⟨rest, rfl, h.symm⟩))
  | .exec :: rest =>
    by_cases hb : s.busy = true
    · rw [fetch_exec hi, bpuTurn_of_busy (s := { s with inputs := rest }) hb] at h
      exact .inr (.inl ⟨by simp [State.takesExec, hb, hi], h⟩)
    · simp only [Bool.not_eq_true] at hb
      rw [fetch_exec hi, bpuTurn_of_idle (s := { s with inputs := rest }) hb] at h
      simp only [Host.Outcome.next.injEq] at h
      exact .inr (.inr (.inr ⟨hb, .inr (by simp), h.symm⟩))

/-! ### This hardware is the machine at the default parameters -/

theorem exec_eq_execAt (i : Instr) (s : State) : exec i s = execAt i s := by cases i <;> rfl

theorem step_eq_stepAt (s : State) : step s = stepAt s := by
  unfold step stepAt
  cases fetch s with
  | run i t => exact exec_eq_execAt i t
  | done t => rfl

/-- Everything a step of this hardware can do. -/
theorem step_cases {s t : State} (h : step s = .next t) :
    (∃ req rest, s.inputs = .request req :: rest ∧
      exec (decodeReq req) { s with inputs := rest } = .next t) ∨
    (s.takesExec = true ∧
      exec (decodeCmd (s.op.word (p := Config.params))) { s with inputs := s.inputs.tail } = .next t) ∨
    (∃ rest, s.inputs = .reset :: rest ∧ t = State.resetEvent { s with inputs := rest }) ∨
    (s.busy = false ∧ (s.inputs = [] ∨ s.inputs.head? = some .exec) ∧
      t = { s with inputs := s.inputs.tail }) := by
  rw [step_eq_stepAt] at h
  simpa only [exec_eq_execAt] using stepAt_cases h

end Sys2Proof.Machine
end

