-- ==== Sys2Proof/Laws/Grid.lean ====
section
/-! SUPPORT. One lemma for each function of Machine/Grid.lean: what its value holds at each index. -/

namespace Sys2Proof.Machine

/-- Padding adds zeros only, so reading past the end is as reading the padding. -/
theorem pad_getD (f : List Bit) (n : Nat) : (pad f).getD n 0 = f.getD n 0 := by
  unfold pad
  by_cases h : n < f.length
  · simp [List.getD, List.getElem?_append_left h]
  · simp only [List.getD, List.getElem?_append_right (Nat.le_of_not_lt h)]
    rw [List.getElem?_eq_none (l := f) (by omega)]
    by_cases h2 : n - f.length < 8 * ceil8 f.length - f.length
    · rw [List.getElem?_replicate, if_pos h2]; rfl
    · rw [List.getElem?_replicate, if_neg h2]

theorem flatten_length (G : BinaryGrid) : (flatten G).length = G.height * G.width := by
  simp [flatten]

theorem flatten_getD (G : BinaryGrid) (n : Nat) :
    (flatten G).getD n 0 =
      if n < G.height * G.width then G.cell (n / G.width) (n % G.width) else 0 := by
  unfold flatten
  by_cases h : n < G.height * G.width <;> simp [List.getD, h]

/-- A byte of `pack(G)`, in terms of the grid alone. -/
theorem pack_getD (G : BinaryGrid) {k : Nat} (hk : k < ceil8 (G.height * G.width)) :
    (pack G).getD k 0 = joinBits fun i =>
      if 8 * k + i < G.height * G.width then
        G.cell ((8 * k + i) / G.width) ((8 * k + i) % G.width)
      else 0 := by
  simp only [pack]
  rw [List.getD_eq_getElem _ _ (by simpa using hk)]
  simp only [List.getElem_map, List.getElem_range]
  refine joinBits_congr fun i _ => ?_
  rw [pad_getD, flatten_getD]

theorem flatBits_length (B : List Byte) : (flatBits B).length = 8 * B.length := by
  induction B with
  | nil => rfl
  | cons v B ih => simp [flatBits] at *; omega

/-- Bit `8k + i` of the flat bits is bit `i` of byte `k`. -/
theorem flatBits_getD (B : List Byte) (n : Nat) (hn : n < 8 * B.length) :
    (flatBits B).getD n 0 = byteBit (B.getD (n / 8) 0) (n % 8) := by
  induction B generalizing n with
  | nil => simp at hn
  | cons v B ih =>
    have hcons : flatBits (v :: B) = ((List.range 8).map fun i => byteBit v i) ++ flatBits B := by
      simp [flatBits]
    rw [hcons]
    by_cases h : n < 8
    · rw [List.getD_append _ _ _ _ (by simpa using h)]
      have h1 : n / 8 = 0 := by omega
      have h2 : n % 8 = n := by omega
      simp [List.getD, h1, h2, h]
    · rw [List.getD_append_right _ _ _ _ (by simp; omega)]
      simp only [List.length_map, List.length_range]
      rw [ih _ (by simp at hn; omega)]
      have e1 : n / 8 = (n - 8) / 8 + 1 := by omega
      have e2 : n % 8 = (n - 8) % 8 := by omega
      rw [e1, ← e2]
      simp [List.getD]

/-- A flat index put together of a row and a column of the shape is below `h*w`. -/
theorem flat_lt {r c h w : Nat} (hr : r < h) (hc : c < w) : r * w + c < h * w := by
  have h1 : (r + 1) * w ≤ h * w := Nat.mul_le_mul_right _ hr
  rw [Nat.succ_mul] at h1
  omega

theorem flat_div {r c w : Nat} (hc : c < w) : (r * w + c) / w = r := by
  rw [Nat.mul_comm, Nat.mul_add_div (by omega), Nat.div_eq_of_lt hc, Nat.add_zero]

theorem flat_mod {r c w : Nat} (hc : c < w) : (r * w + c) % w = c := by
  rw [Nat.mul_comm, Nat.mul_add_mod, Nat.mod_eq_of_lt hc]

/-- A cell of `unpack(B, w, h)`, in terms of the bytes alone. -/
theorem unpack_cell (B : List Byte) {w h r c : Nat} (hr : r < h) (hc : c < w)
    (hl : ceil8 (w * h) ≤ B.length) :
    (unpack B w h).cell r c = byteBit (B.getD ((r * w + c) / 8) 0) ((r * w + c) % 8) := by
  have h1 : r * w + c < w * h := Nat.mul_comm w h ▸ flat_lt hr hc
  have h2 : w * h ≤ 8 * B.length := by simp only [ceil8] at hl; omega
  simp only [unpack]
  rw [← flatBits_getD B _ (by omega)]
  simp [List.getD, h1]

end Sys2Proof.Machine
end

