-- ==== Sys2Proof/Laws/PerInstr.lean ====
section
/-! SUPPORT. The statement made of each instruction by itself: the word the encoder writes fits the row of
spec/opcode_table.json that the instruction stands for, under the row's own mask and match. -/

namespace Sys2Proof

/-- The mask of the HREQ rows keeps the three bits `sel` of a request word of this hardware, and nothing else. -/
theorem append_and_mask (sel : BitVec 3) (a : BitVec 14) (v : BitVec 32) :
    (sel ++ a ++ v) &&& 0x1C00000000000#49 = sel ++ 0#46 := by
  have hm : (0x1C00000000000#49) = 0b111#3 ++ 0#46 := by decide
  rw [hm]
  apply BitVec.eq_of_getLsbD_eq
  intro i hi
  simp only [BitVec.getLsbD_and, BitVec.getLsbD_append, BitVec.getLsbD_zero]
  by_cases h : i < 46
  · simp [h]
  · have h1 : ¬ i < 32 := by omega
    have h2 : ¬ i - 32 < 14 := by omega
    have h3 : i - 32 - 14 = i - 46 := by omega
    have h4 : i - 46 < 3 := by omega
    have h5 : (0b111#3).getLsbD (i - 46) = true := by
      generalize i - 46 = j at h4
      interval_cases j <;> rfl
    simp [h, h1, h2, h3, h5]

/-- An encoded request fits the row whose `match` is its `sel` in the top three bits. -/
theorem fits_of_sel (sel : BitVec 3) (a : Addr) (v m : Nat) (hm : (sel ++ 0#46).toNat = m) :
    (encodeReq sel a v).fits m 0x1C00000000000 = true := by
  have h := congrArg BitVec.toNat (append_and_mask sel a (BitVec.ofNat 32 v))
  rw [BitVec.toNat_and, hm] at h
  exact beq_iff_eq.mpr h

end Sys2Proof

namespace Sys2Proof.Laws.RowFit

/-- The encoded instruction fits its row of the opcode table. -/
def Statement (i : Instr) : Prop := (encode i).fits i.rowMatch i.rowMask = true

theorem rdreg (n : Nat) : Statement (.rdreg n) := fits_of_sel _ _ _ _ rfl
theorem wrreg (n : Nat) (v : Nat) : Statement (.wrreg n v) := fits_of_sel _ _ _ _ rfl
theorem rdg (r c : Nat) : Statement (.rdg r c) := fits_of_sel _ _ _ _ rfl
theorem wrg (r c : Nat) (v : Nat) : Statement (.wrg r c v) := fits_of_sel _ _ _ _ rfl
theorem rdb (k : Nat) : Statement (.rdb k) := fits_of_sel _ _ _ _ rfl
theorem wrb (k : Nat) (v : Nat) : Statement (.wrb k v) := fits_of_sel _ _ _ _ rfl
theorem rdrsv (a : Nat) : Statement (.rdrsv a) := fits_of_sel _ _ _ _ rfl
theorem wrrsv (a : Nat) (v : Nat) : Statement (.wrrsv a v) := fits_of_sel _ _ _ _ rfl
theorem pack : Statement .pack := rfl
theorem unpack : Statement .unpack := rfl

end Sys2Proof.Laws.RowFit
end

