-- ==== Sys2Proof/Laws/Run.lean ====
section
/-! SUPPORT. Runs of several steps, and the step each line of a host script comes to. -/

namespace Sys2Proof.Machine

/-! ### Runs -/

@[simp] theorem State.runsTo_zero (s t : State) : s.runsTo 0 t ↔ s = t := by
  change (Host.Outcome.next s : Host.Outcome State Fault Refusal) = .next t ↔ s = t
  simp

/-- A run of one step more. -/
theorem State.runsTo_succ (s t : State) (k : Nat) :
    s.runsTo (k + 1) t ↔ ∃ u, step s = .next u ∧ u.runsTo k t := by
  simp only [State.runsTo, Host.Core.run]
  have hstep : Sys2Proof.core.step s = step s := rfl
  rw [hstep]
  cases h : step s with
  | next u => simp
  | fault r => exact nomatch r
  | refused r => simp

theorem State.runsTo_one (s t : State) : s.runsTo 1 t ↔ step s = .next t := by
  simp [State.runsTo_succ]

/-- Two runs one after the other. -/
theorem State.runsTo_add {s u t : State} {j k : Nat} (h : s.runsTo j u) (h' : u.runsTo k t) :
    s.runsTo (j + k) t := by
  induction j generalizing s with
  | zero =>
    obtain rfl := (State.runsTo_zero s u).mp h
    simpa using h'
  | succ j ih =>
    obtain ⟨v, hv, hr⟩ := (State.runsTo_succ s u j).mp h
    rw [Nat.succ_add]
    exact (State.runsTo_succ s t (j + k)).mpr ⟨v, hv, ih hr⟩

/-- A run has at most one end. -/
theorem State.runsTo_unique {s t t' : State} {k : Nat} (h : s.runsTo k t) (h' : s.runsTo k t') :
    t = t' := by
  unfold State.runsTo at h h'
  rw [h] at h'
  exact Host.Outcome.next.inj h'

/-! ### The lines of a host script -/

theorem decodeReq_rdreg (n : Addr) (v : Word) : decodeReq (reqWord 0b000#3 n v) = .rdreg n.toNat := by
  simp [decodeReq]

theorem decodeReq_wrreg (n : Addr) (v : Word) : decodeReq (reqWord 0b001#3 n v) = .wrreg n.toNat v.toNat := by
  simp [decodeReq]

theorem decodeReq_wrg {r c : Nat} (hr : r < 128) (hc : c < 128) (v : Word) :
    decodeReq (reqWord 0b011#3 (gmAddr r c) v) = .wrg r c v.toNat := by
  have h := gmAddr_fits hr hc
  simp [decodeReq, addrRow_gmAddr h hc, addrCol_gmAddr h hc]

theorem decodeReq_wrb (k : Addr) (v : Word) : decodeReq (reqWord 0b101#3 k v) = .wrb k.toNat v.toNat := by
  simp [decodeReq]

/-- A poll of STATUS. -/
theorem step_rdreg_status {s : State} {rest : List Event} (h : s.inputs = Script.rdreg 1 :: rest) :
    step s = .next { s with inputs := rest, rdata := some s.statusWord } := by
  rw [Script.rdreg, Script.issue] at h
  simp only [step, fetch_request h, decodeReq_rdreg]
  rfl

/-- A performed write to a register. -/
theorem step_wrreg {s : State} {n : Addr} {v : Word} {rest : List Event} (hb : s.busy = false)
    (h : s.inputs = Script.wrreg n v :: rest) :
    step s = .next (State.noResponse (State.writeRegister { s with inputs := rest } n.toNat v)) := by
  rw [Script.wrreg, Script.issue] at h
  simp only [step, fetch_request h, decodeReq_wrreg, exec, execWrreg, dataWord_toNat]
  rw [State.hostWrite_of_idle (s := { s with inputs := rest }) hb]

/-- A command start while idle. -/
theorem step_start {s : State} {c : Command} {rest : List Event} (hb : s.busy = false)
    (h : s.inputs = Script.start c :: rest) :
    step s = .next { s with
      inputs := rest, rdata := none, op := c, err := .none, busy := true } := by
  cases c <;> exact step_wrreg hb h

/-- A performed write of a grid cell. -/
theorem step_wrg {s : State} {r c : Nat} {v : Word} {rest : List Event} (hb : s.busy = false)
    (hr : r < 128) (hc : c < 128) (h : s.inputs = Script.wrg r c v :: rest) :
    step s = .next
      (State.noResponse (State.gmWrite { s with inputs := rest } r c (wordCell v))) := by
  rw [Script.wrg, Script.issue] at h
  have hin : gmInRange r c = true := by simp [gmInRange, Config.params_gdim, hr, hc]
  simp only [step, fetch_request h, decodeReq_wrg hr hc, exec, execWrg, hin, if_true, dataWord_toNat]
  rw [State.hostWrite_of_idle (s := { s with inputs := rest }) hb]

/-- A performed write of a byte. -/
theorem step_wrb {s : State} {k : Addr} {v : Word} {rest : List Event} (hb : s.busy = false)
    (hk : k.toNat < 4096) (h : s.inputs = Script.wrb k v :: rest) :
    step s = .next
      (State.noResponse (State.bmWrite { s with inputs := rest } k.toNat (wordByte v))) := by
  rw [Script.wrb, Script.issue] at h
  simp only [step, fetch_request h, decodeReq_wrb, exec, execWrb, Config.params_nbyte, hk, if_true,
    dataWord_toNat]
  rw [State.hostWrite_of_idle (s := { s with inputs := rest }) hb]

end Sys2Proof.Machine
end

