-- ==== Sys2Proof/Tests/Slice0.lean ====
section
/-! SUPPORT. Tests. Expected values are from the spec: its encodings (30_encoding.md R74 to R79), and the vectors
of 95_test_vectors.md, whose number each test gives. The last part shows, for every statement with hypotheses,
a state and operands that meet them. -/

namespace Sys2Proof.Tests

open Sys2Proof Sys2Proof.Machine

/-! ### Well-formedness: one ill-formed term for each check, and the largest well-formed operands -/

theorem test_wf_refuses_register : (Instr.rdreg 16384).wf = false ∧ (Instr.wrreg 16384 0).wf = false := by decide
theorem test_wf_refuses_row : (Instr.rdg 128 0).wf = false ∧ (Instr.wrg 128 0 1).wf = false := by decide
theorem test_wf_refuses_column : (Instr.rdg 0 128).wf = false ∧ (Instr.wrg 0 128 1).wf = false := by decide
theorem test_wf_refuses_byte : (Instr.rdb 16384).wf = false ∧ (Instr.wrb 16384 0).wf = false := by decide
theorem test_wf_refuses_reserved : (Instr.rdrsv 16384).wf = false ∧ (Instr.wrrsv 16384 0).wf = false := by
  decide
theorem test_wf_refuses_data :
    (Instr.wrreg 0 0x100000000).wf = false ∧ (Instr.wrg 0 0 0x100000000).wf = false ∧
    (Instr.wrb 0 0x100000000).wf = false ∧ (Instr.wrrsv 0 0x100000000).wf = false := by decide

/-! ### Decoding: each row's word written out from R74 to R76 and R79 -/

theorem test_decode_rdreg :
    decode (p := Config.params) (.hreq (0b000#3 ++ 0b00000000000001#14 ++ 0x00000000#32)) = .rdreg 1 ∧
    decodeTableWord 56 0x0000100000000 = some (.rdreg 1) := by decide
theorem test_decode_wrreg :
    decode (p := Config.params) (.hreq (0b001#3 ++ 0b00000000000010#14 ++ 0xFFFFFFFC#32)) = .wrreg 2 0xFFFFFFFC ∧
    decodeTableWord 56 0x04002FFFFFFFC = some (.wrreg 2 0xFFFFFFFC) := by decide
theorem test_decode_rdg :
    decode (p := Config.params) (.hreq (0b010#3 ++ 0b0000001#7 ++ 0b0000010#7 ++ 0x00000000#32)) = .rdg 1 2 ∧
    decodeTableWord 56 0x0808200000000 = some (.rdg 1 2) := by decide
theorem test_decode_wrg :
    decode (p := Config.params) (.hreq (0b011#3 ++ 0b0000010#7 ++ 0b0000001#7 ++ 0x00000001#32)) = .wrg 2 1 1 ∧
    decodeTableWord 56 0x0C10100000001 = some (.wrg 2 1 1) := by decide
theorem test_decode_rdb :
    decode (p := Config.params) (.hreq (0b100#3 ++ 0b00000000000010#14 ++ 0x00000000#32)) = .rdb 2 ∧
    decodeTableWord 56 0x1000200000000 = some (.rdb 2) := by decide
theorem test_decode_wrb :
    decode (p := Config.params) (.hreq (0b101#3 ++ 0b00000000000001#14 ++ 0x000000FE#32)) = .wrb 1 0xFE ∧
    decodeTableWord 56 0x14001000000FE = some (.wrb 1 0xFE) := by decide
theorem test_decode_rdrsv :
    decode (p := Config.params) (.hreq (0b110#3 ++ 0b00000000000000#14 ++ 0x00000000#32)) = .rdrsv 0 ∧
    decodeTableWord 56 0x1800000000000 = some (.rdrsv 0) := by decide
theorem test_decode_wrrsv :
    decode (p := Config.params) (.hreq (0b111#3 ++ 0b11111111111111#14 ++ 0xFFFFFFFF#32)) = .wrrsv 0x3FFF 0xFFFFFFFF ∧
    decodeTableWord 56 0x1FFFFFFFFFFFF = some (.wrrsv 0x3FFF 0xFFFFFFFF) := by decide
/-- VH18: the reserved bits of a command word are ignored. -/
theorem test_decode_pack :
    decodeTableWord 32 0x00000000 = some .pack ∧ decodeTableWord 32 0xFFFFFFFE = some .pack := by decide
/-- VH19. -/
theorem test_decode_unpack :
    decodeTableWord 32 0x00000001 = some .unpack ∧ decodeTableWord 32 0xFFFFFFFF = some .unpack := by decide
/-- R83: as a full request word PACK is 0x0400000000000 and UNPACK 0x0400000000001. -/
theorem test_decode_command_request :
    decodeTableWord 56 0x0400000000000 = some (.wrreg 0 0) ∧
    decodeTableWord 56 0x0400000000001 = some (.wrreg 0 1) := by decide
/-- Bits above the 49 of a request word, or the 32 of a command word, are refused by name. -/
theorem test_decode_too_wide :
    encodedOfNat 56 0x2000000000000 = .error .requestTooWide ∧
    encodedOfNat 32 0x100000000 = .error .commandTooWide := ⟨rfl, rfl⟩
/-- VH17: GM addresses. -/
theorem test_gm_address :
    gmAddr 0 0 = 0x0000 ∧ gmAddr 1 3 = 0x0083 ∧ gmAddr 2 0 = 0x0100 ∧ gmAddr 127 127 = 0x3FFF := by decide

/-! ### States for the tests -/

/-- The state a step or an instruction ends in. -/
def ends (o : Host.Outcome State Fault Refusal) : State :=
  match o with
  | .next t => t
  | .fault r => nomatch r
  | .refused _ => State.reset

/-- An idle state with the checkerboard of VP2 in GM, its packed byte in BM, and its shape declared. -/
def board : State :=
  { State.reset with
    width := 4, height := 2, blen := 1
    gm := [(0, 1), (1, 0), (2, 1), (3, 0), (128, 0), (129, 1), (130, 0), (131, 1)]
    bm := [(0, 0xA5)] }

/-- A 3 x 3 state: the grid of VP6 in GM, the bytes of VU11 in BM. -/
def square : State :=
  { State.reset with
    width := 3, height := 3, blen := 2
    gm := [(0, 1), (1, 0), (2, 1), (128, 0), (129, 1), (130, 0), (256, 1), (257, 0), (258, 1)]
    bm := [(0, 0x55), (1, 0xFE)] }

/-- A state with a command pending. -/
def pending (c : Command) (s : State) : State := { s with op := c, err := .none, busy := true }

/-! ### One step each -/

/-- VH2. -/
theorem test_rdreg_sign_extends :
    (ends (exec (.rdreg 2) { board with width := 0xFC })).rdata = some 0xFFFFFFFC := by decide
/-- VH22, VS3. -/
theorem test_rdreg_status_while_busy :
    (ends (exec (.rdreg 1) (pending .unpack board))).rdata = some 0x3 := by decide
/-- VH3. -/
theorem test_wrreg_truncates : (ends (exec (.wrreg 2 0x12C) board)).width = 0x2C := by decide
/-- VH19. -/
theorem test_wrreg_starts_unpack :
    (ends (exec (.wrreg 0 0xFFFFFFFF) { board with err := .dimensionMismatch })).statusWord = 0x3 := by
  decide
/-- R93's example. -/
theorem test_rdg_reads : (ends (exec (.rdg 1 3) board)).rdata = some 1 := by decide
/-- VH21: a read while busy changes nothing. -/
theorem test_rdg_while_busy : (ends (exec (.rdg 1 3) (pending .pack board))).toBlock = (pending .pack board).toBlock :=
  rfl
/-- VH14: bit 0 of the data is kept. -/
theorem test_wrg_keeps_bit_zero :
    (ends (exec (.wrg 0 0 0xFFFFFFFE) board)).gmRead 0 0 = 0 ∧
    (ends (exec (.wrg 0 1 255) board)).gmRead 0 1 = 1 := by decide
/-- VH20. -/
theorem test_wrg_while_busy : (ends (exec (.wrg 0 0 0) (pending .pack board))).gmRead 0 0 = 1 := by decide
/-- VP2: the packed byte is read as 165. -/
theorem test_rdb_reads : (ends (exec (.rdb 0) board)).rdata = some 165 := by decide
/-- VH16, also while busy. -/
theorem test_rdb_out_of_range :
    (ends (exec (.rdb 0x1000) (pending .unpack board))).rdata = some 0 := by decide
/-- VH15. -/
theorem test_wrb_keeps_low_byte :
    (ends (exec (.wrb 7 0x1A5) board)).bmRead 7 = 0xA5 ∧ (ends (exec (.wrb 7 0x1A5) board)).blen = 1 := by
  decide
/-- VH16. -/
theorem test_wrb_out_of_range : (ends (exec (.wrb 0x1000 0xFF) board)).bm = [(0, 0xA5)] := by decide
/-- VH22. -/
theorem test_rdrsv_reads_zero : (ends (exec (.rdrsv 0x83) (pending .pack board))).rdata = some 0 := by decide
/-- VH23. -/
theorem test_wrrsv_ignored : (ends (exec (.wrrsv 0x83 0xFFFFFFFF) board)).toBlock = board.toBlock := rfl
/-- VP6. -/
theorem test_pack_square :
    (ends (exec .pack (pending .pack square))).bm = [(0, 0x55), (1, 0x01)] ∧
    (ends (exec .pack (pending .pack square))).statusWord = 0 := by decide
/-- VP22: the product of the dimensions is positive; still refused. -/
theorem test_pack_refuses_negative :
    (ends (exec .pack (pending .pack { board with width := 0xFC, height := 0xFE }))).statusWord = 0x8 := by
  decide
/-- VU11: the padding bits of byte 1 are dropped, its bit 0 is the last cell. -/
theorem test_unpack_square :
    (ends (exec .unpack (pending .unpack { square with gm := [] }))).gm =
      [(0, 1), (1, 0), (2, 1), (128, 0), (129, 1), (130, 0), (256, 1), (257, 0), (258, 0)] := by decide
/-- VU21: the dimensions are checked before the length; VU8: one byte short. -/
theorem test_unpack_errors :
    (ends (exec .unpack (pending .unpack
      { board with width := 0xFC, height := 0xFE, blen := 0 }))).statusWord = 0xA ∧
    (ends (exec .unpack (pending .unpack { board with width := 3, height := 3 }))).statusWord = 0x6 := by
  decide
/-- P1, step 2, as a request word from reset; P4, steps 2 and 3, as a command word from reset. -/
theorem test_step_from_reset :
    (ends (step (State.reset.withFetchWord 56 0x0400200000004))).width = 4 ∧
    (ends (step (State.reset.withFetchWord 32 0x00000000))).statusWord = 0x8 := by decide

/-! ### Other parameters (00_scope.md R6, R7) -/

/-- A narrow machine: dimensions 1 to 3, a grid of 4 x 4, 4 bytes, and addresses of 4 bits. -/
@[reducible] def narrow : Config.Params := { xlen := 8, dimw := 3, lenw := 2 }

/-- A machine whose addresses are wider than those of GM: `AW = 5`, `GAW = 2`, a grid of 2 x 2. -/
@[reducible] def tall : Config.Params := { xlen := 8, dimw := 2, lenw := 5 }

/-- Each constraint of R7 broken alone. -/
theorem test_parameters_valid :
    narrow.valid = true ∧ tall.valid = true ∧
    ({ xlen := 8, dimw := 1, lenw := 3 } : Config.Params).valid = false ∧
    ({ xlen := 8, dimw := 2, lenw := 0 } : Config.Params).valid = false ∧
    ({ xlen := 3, dimw := 2, lenw := 1 } : Config.Params).valid = false ∧
    ({ xlen := 8, dimw := 4, lenw := 2 } : Config.Params).valid = false := by decide

/-- A full 3 x 3 grid with PACK pending, and the nine bits as two bytes with UNPACK pending, on the narrow
machine. -/
def narrowPending (c : Command) : State narrow :=
  { State.resetAt narrow with
    width := 3, height := 3, blen := 2, op := c, busy := true
    gm := [(0, 1), (1, 1), (2, 1), (4, 1), (5, 1), (6, 1), (8, 1), (9, 1), (10, 1)]
    bm := [(0, 0xFF), (1, 0xFF)] }

/-- R79 at the narrow machine: cell (1, 2) has address 6, by `addr[3:2]` and `addr[1:0]`; nine cells pack into two
bytes there, and back. -/
theorem test_narrow_machine :
    decode (encode (.wrg 1 2 1) narrow) = .wrg 1 2 1 ∧ gmAddr 1 2 narrow = 6 ∧
    (∃ t, stepAt (narrowPending .pack) = .next t ∧ t.bm = [(0, 0xFF), (1, 0x01)] ∧ t.blen = 2) ∧
    ∃ t, stepAt (narrowPending .unpack) = .next t ∧ t.gm = (narrowPending .unpack).gm ∧ t.err = .none :=
  ⟨by decide, by decide, ⟨_, rfl, by decide, by decide⟩, _, rfl, by decide, by decide⟩

/-- R52 at the tall machine: the address 0x1F names row 15, which is not there: 0 is read. -/
theorem test_tall_machine :
    decode (encode (.rdg 15 1) tall) = .rdg 15 1 ∧
    ∃ t, execAt (.rdg 15 1) (State.resetAt tall) = .next t ∧ t.rdata = some 0 :=
  ⟨by decide, _, rfl, by decide⟩

/-! ### Every statement with hypotheses: a state and operands that meet them -/

theorem test_meets_DecodeEncodeAgree :
    (Instr.rdreg 16383).wf = true ∧ (Instr.wrreg 16383 0xFFFFFFFF).wf = true ∧
    (Instr.rdg 127 127).wf = true ∧ (Instr.wrg 127 127 1).wf = true ∧ (Instr.rdb 16383).wf = true ∧
    (Instr.wrb 16383 0xFF).wf = true ∧ (Instr.rdrsv 16383).wf = true ∧ (Instr.wrrsv 16383 1).wf = true ∧
    Instr.pack.wf = true ∧ Instr.unpack.wf = true ∧
    tall.valid = true ∧ (Instr.wrg 15 1 0xFF).wf tall = true ∧ (Instr.rdb 31).wf tall = true := by decide

/-- The last cell and the last byte. -/
theorem test_meets_AddressIsRowAndColumn :
    127 < 128 ∧ decodeReq (reqWord 0b010#3 (gmAddr 127 127) 0) = .rdg 127 127 ∧
    4095 < 4096 ∧ decodeReq (reqWord (p := Config.params) 0b100#3 (BitVec.ofNat 14 4095) 0) = .rdb 4095 := by
  decide

theorem test_meets_CommandWordSelects :
    0xFFFFFFFE#32 &&& 0x00000001#32 = 0x00000000#32 ∧ 0xFFFFFFFF#32 &&& 0x00000001#32 = 0x00000001#32 := by
  decide

theorem test_meets_StepRunsRequest :
    (State.present board (encode (.rdg 1 3))).inputs = .request 0x0808300000000 :: [] := by decide

theorem test_meets_StepRunsPendingCommand :
    (pending .pack board).busy = true ∧ (pending .pack board).inputs = [] ∧
    ({ pending .unpack board with inputs := [.exec, .reset] } : State).inputs = .exec :: [.reset] ∧
    board.busy = false ∧ board.inputs = [] ∧
    ({ board with inputs := [.exec] } : State).inputs = .exec :: [] := by decide

theorem test_meets_NoOtherFailure :
    (pending .unpack board).takesExec = true ∧ ∃ t, step (pending .unpack board) = .next t :=
  ⟨rfl, _, rfl⟩

theorem test_meets_ResetEventClears :
    ({ pending .unpack board with inputs := [.reset] } : State).inputs = .reset :: [] := by decide

/-- RDREG at the first and the last register number of each clause. -/
theorem test_meets_RdregReadsRegister :
    board.busy = false ∧ (pending .pack board).busy = true ∧
    (ends (exec (.rdreg 0) board)).rdata = some 0 ∧ (ends (exec (.rdreg 1) board)).rdata = some 0 ∧
    (ends (exec (.rdreg 2) board)).rdata = some 4 ∧ (ends (exec (.rdreg 3) board)).rdata = some 2 ∧
    (ends (exec (.rdreg 4) board)).rdata = some 1 ∧ (ends (exec (.rdreg 5) board)).rdata = some 0 ∧
    (ends (exec (.rdreg 16383) board)).rdata = some 0 := by decide

/-- WRREG at each register number, and at the first and the last reserved one. -/
theorem test_meets_WrregWritesRegister :
    board.busy = false ∧ (pending .pack board).busy = true ∧ (1 : Nat) ≠ 0 ∧
    (ends (exec (.wrreg 1 7) board)).toBlock = board.toBlock ∧
    (ends (exec (.wrreg 2 7) board)).width = 7 ∧ (ends (exec (.wrreg 3 7) board)).height = 7 ∧
    (ends (exec (.wrreg 4 7) board)).blen = 7 ∧
    (ends (exec (.wrreg 5 7) board)).toBlock = board.toBlock ∧
    (ends (exec (.wrreg 16383 7) board)).toBlock = board.toBlock := by decide

theorem test_meets_CommandStartWritesStatus :
    board.busy = false ∧ (ends (exec (.wrreg 0 0) board)).statusWord = 1 ∧
    (pending .pack board).busy = true ∧ (ends (exec (.wrreg 0 1) (pending .pack board))).op = .pack := by
  decide

theorem test_meets_RdgReadsCell :
    127 < 128 ∧ board.busy = false ∧ (pending .pack board).busy = true ∧
    (ends (exec (.rdg 127 127) { board with gm := [(16383, 1)] })).rdata = some 1 := by decide

theorem test_meets_WrgWritesCell :
    127 < 128 ∧ board.busy = false ∧ (pending .pack board).busy = true ∧ ¬(127 = 0 ∧ 127 = 0) ∧
    (ends (exec (.wrg 127 127 1) board)).gmRead 127 127 = 1 ∧
    (ends (exec (.wrg 127 127 1) board)).gmRead 0 0 = 1 := by decide

theorem test_meets_RdbReadsByte :
    4095 < 4096 ∧ 4096 ≤ 4096 ∧ board.busy = false ∧ (pending .pack board).busy = true ∧
    (ends (exec (.rdb 4095) { board with bm := [(4095, 9)] })).rdata = some 9 ∧
    (ends (exec (.rdb 4096) board)).rdata = some 0 := by decide

theorem test_meets_WrbWritesByte :
    4095 < 4096 ∧ 4096 ≤ 4096 ∧ board.busy = false ∧ (pending .pack board).busy = true ∧ (0 : Nat) ≠ 4095 ∧
    (ends (exec (.wrb 4095 9) board)).bmRead 4095 = 9 ∧
    (ends (exec (.wrb 4096 9) board)).bm = board.bm := by decide

/-- Each form the busy rule names, at the last operand of its range. -/
theorem test_meets_BusyGatesRequests :
    (pending .unpack board).busy = true ∧ isHostWrite (.wrreg 0 1) = true ∧
    isHostWrite (.wrg 0 0 1) = true ∧ isHostWrite (.wrb 0 1) = true ∧ isHostWrite (.wrrsv 0 1) = true ∧
    5 ≤ 16383 ∧ 4096 ≤ 16383 ∧
    ((∃ n, 2 ≤ n ∧ n ≤ 4 ∧ Instr.rdreg 4 = .rdreg n) ∧
      (∃ r c, r < 128 ∧ c < 128 ∧ Instr.rdg 127 127 = .rdg r c) ∧
      ∃ k, k < 4096 ∧ Instr.rdb 4095 = .rdb k) :=
  ⟨rfl, rfl, rfl, rfl, rfl, by decide, by decide,
    ⟨4, by decide, by decide, rfl⟩, ⟨127, 127, by decide, by decide, rfl⟩, 4095, by decide, rfl⟩

/-- The first place out of range of each kind, on this hardware and on the tall machine. -/
theorem test_meets_ReservedSpaceIsInert :
    Config.params.gdim ≤ 128 ∧ Config.params.nbyte ≤ 4096 ∧ 5 ≤ 5 ∧ tall.gdim ≤ 2 ∧ tall.nbyte ≤ 32 ∧
    (ends (exec (.rdg 128 0) board)).rdata = some 0 ∧ (ends (exec (.rdb 4096) board)).rdata = some 0 ∧
    (ends (exec (.rdreg 5) board)).rdata = some 0 := by decide

theorem test_meets_BusyReadsTakeFreshDraws :
    (pending .unpack board).busy = true ∧ (∃ n, 2 ≤ n ∧ n ≤ 4 ∧ Instr.rdreg 2 = .rdreg n) ∧
    isHostWrite (.wrb 4096 1) = true :=
  ⟨rfl, ⟨2, by decide, by decide, rfl⟩, rfl⟩

/-- Words on both sides of what a register can hold (VH5, VH6, VH3, VH8, VH9). -/
theorem test_meets_RegisterKeepsRepresentableValues :
    board.busy = false ∧ (0xFFFFFF80#32).toInt = -128 ∧ (0x7F#32).toInt = 127 ∧
    ¬(0x80#32).toInt ≤ 127 ∧ ¬-128 ≤ (0xFFFFFF7F#32).toInt ∧
    (0xFFF#32).toNat ≤ 4095 ∧ ¬(0x1000#32).toNat ≤ 4095 := by decide

theorem test_meets_WrittenLocationReadsBack :
    board.busy = false ∧ 127 < 128 ∧ 4095 < 4096 := by decide

/-- PACK pending on a shape of 9 cells, and on each kind of shape that is refused. -/
theorem test_meets_pack_statements :
    (pending .pack square).busy = true ∧ (pending .pack square).op = .pack ∧
    0 < (pending .pack square).width.toInt ∧ 0 < (pending .pack square).height.toInt ∧
    ((3 : Nat) : Int) = (pending .pack square).width.toInt ∧ 9 = 3 * 3 ∧ 2 = ceil8 9 ∧
    (pending .pack square).dimsOk = true ∧ (pending .pack square).cells % 8 ≠ 0 ∧
    (pending .pack square).cells % 8 ≤ 1 ∧ 0 < (pending .pack square).cells % 8 ∧
    ceil8 ((pending .pack square).width.toInt * (pending .pack square).height.toInt).toNat ≤ 2 ∧
    (pending .pack board).dimsOk = true ∧ (pending .pack board).cells % 8 = 0 := by decide

/-- PACK and UNPACK pending at other parameters. -/
theorem test_meets_PackComputesPack :
    narrow.valid = true ∧ (narrowPending .pack).busy = true ∧ (narrowPending .pack).op = .pack ∧
    (narrowPending .unpack).busy = true ∧ (narrowPending .unpack).op = .unpack := by decide

/-- The nearest refused shapes: VP17, VP18, VP20, VP21. -/
theorem test_meets_PackRefusesBadDimensions :
    (pending .pack { board with width := 0 }).busy = true ∧ (pending .pack { board with width := 0 }).op = .pack ∧
    (0#8).toInt ≤ 0 ∧ (0xFF#8).toInt ≤ 0 ∧ (0x80#8).toInt ≤ 0 ∧ ¬(1#8).toInt ≤ 0 ∧
    (pending .pack { board with height := 0x80 }).height.toInt ≤ 0 := by decide

/-- UNPACK pending with exactly the bytes 9 cells need, with one byte less, and with no positive width. -/
theorem test_meets_unpack_statements :
    (pending .unpack square).busy = true ∧ (pending .unpack square).op = .unpack ∧
    0 < (pending .unpack square).width.toInt ∧ 0 < (pending .unpack square).height.toInt ∧
    ((3 : Nat) : Int) = (pending .unpack square).width.toInt ∧
    ceil8 (3 * 3) ≤ (pending .unpack square).blen.toNat ∧
    ceil8 ((pending .unpack square).width.toInt * (pending .unpack square).height.toInt).toNat ≤
      (pending .unpack square).blen.toNat ∧
    (1#12).toNat < ceil8 (3 * 3) ∧ (0#8).toInt ≤ 0 ∧
    127 < 128 ∧ (pending .unpack square).height.toInt ≤ (3 : Nat) ∧ 8 < 3 * 3 := by decide

/-- VU9 and VU10 with two more bytes: other padding and extra bytes, the same nine bits. -/
theorem test_meets_UnpackIgnoresPaddingAndExtraBytes :
    let s := pending .unpack { square with bm := [(0, 0x55), (1, 0x01)] }
    let s' := pending .unpack { square with bm := [(0, 0x55), (1, 0xFF), (2, 0xAA), (3, 0xBB)], blen := 4 }
    s.busy = true ∧ s'.busy = true ∧ s.op = .unpack ∧ s'.op = .unpack ∧ s.dimsOk = true ∧
    s'.width = s.width ∧ s'.height = s.height ∧ s.packedLen ≤ s.len ∧ s.packedLen ≤ s'.len ∧
    ∀ n, n < s.cells → byteBit (s'.bmRead (n / 8)) (n % 8) = byteBit (s.bmRead (n / 8)) (n % 8) := by
  decide

/-- The grid of VP6 as a function of row and column. -/
def cross : BinaryGrid := ⟨3, 3, fun r c => if (r + c) % 2 = 0 then 1 else 0⟩

/-- The bytes of VP6, by the function and by the bit-serial loop; VU10's bytes give the grid back. -/
theorem test_pack_function :
    pack cross = [0x55, 0x01] ∧ packSerial cross = [0x55, 0x01] ∧
    flatten (unpack [0x55, 0xFF] 3 3) = flatten cross := by decide

theorem test_meets_function_laws :
    0 < cross.height ∧ 0 < cross.width ∧ 1 ≤ 3 ∧ ceil8 (3 * 3) ≤ [0x55#8, 0xFF#8].length ∧
    0 + 1 < ceil8 (3 * 3) ∧ 3 * 3 % 8 ≠ 0 ∧ 4 * 2 % 8 = 0 ∧ ceil8 (4 * 2) ≤ [0xA5#8].length ∧ 0 < 3 := by
  decide

theorem test_meets_CommandOutcomeDependsOnOperandsOnly :
    let s := pending .pack square
    let s' : State := { pending .pack square with rdata := some 7, inputs := [.reset], draws := 3 }
    s.busy = true ∧ s'.busy = true ∧ s'.op = s.op ∧ s'.width = s.width ∧ s'.height = s.height ∧
    s'.blen = s.blen ∧ (∀ r c, r < 128 → c < 128 → s'.gmRead r c = s.gmRead r c) ∧
    ∀ k, k < 4096 → s'.bmRead k = s.bmRead k :=
  ⟨rfl, rfl, rfl, rfl, rfl, rfl, fun _ _ _ _ => rfl, fun _ _ => rfl⟩

/-- The last cell of a 3 x 3 grid. -/
theorem test_meets_PackMovesBitsIndependently :
    2 < 3 ∧ 1 < ceil8 (3 * 3) ∧ 0 < 8 ∧ 8 * 1 + 0 = 2 * 3 + 2 := by decide

/-- VU2, VU3 and VU6: 8 cells as 4 x 2 and as 2 x 4, and the shorter shape 3 x 2. -/
theorem test_meets_OtherShapeSameFlatBits :
    1 ≤ 4 ∧ 1 ≤ 2 ∧ ceil8 (4 * 2) ≤ [0xA5#8].length ∧ 2 * 4 = 4 * 2 ∧ 3 * 2 < 4 * 2 := by decide

/-- VP2 and VP13: two shapes, one flat sequence. -/
theorem test_meets_PackForgetsShape :
    let G : BinaryGrid := ⟨2, 4, fun r c => if (r + c) % 2 = 0 then 1 else 0⟩
    let H : BinaryGrid := ⟨4, 2, fun r c => if r / 2 = c then 1 else 0⟩
    flatten G = flatten H ∧ pack G = [0xA5] := by decide

/-- VL2: other bytes from the third on, and a larger BLEN. -/
theorem test_meets_ExtraBytesAreIgnored :
    let s := pending .unpack square
    let s' := pending .unpack { square with bm := [(0, 0x55), (1, 0xFE), (2, 0xEE)], blen := 4095 }
    0 < cross.height ∧ 0 < cross.width ∧ s.busy = true ∧ s'.busy = true ∧ s.op = .unpack ∧ s'.op = .unpack ∧
    s.dimsOk = true ∧ s'.width = s.width ∧ s'.height = s.height ∧ s.packedLen ≤ s.len ∧
    s.packedLen ≤ s'.len ∧ ∀ k, k < s.packedLen → s'.bmRead k = s.bmRead k := by decide

/-- Two grids that differ outside their shape only. -/
theorem test_meets_PackIsInjectiveAtOneShape :
    let G : BinaryGrid := ⟨1, 1, fun _ _ => 1⟩
    let H : BinaryGrid := ⟨1, 1, fun r _ => if r = 0 then 1 else 0⟩
    0 < G.height ∧ 0 < G.width ∧ G.height = H.height ∧ G.width = H.width ∧ pack G = pack H := by decide

/-- A command that fails: UNPACK of 8 cells with no byte declared. -/
theorem test_meets_FailureChangesNothing :
    ({ board with blen := 0 } : State).busy = false ∧
    ∃ t, ({ board with blen := 0 } : State).runsCommand .unpack t ∧ t.err ≠ .none :=
  ⟨rfl, _, rfl, by decide⟩

/-- UNPACK fails, then PACK succeeds; without the UNPACK, PACK succeeds as well. -/
theorem test_meets_FailedCommandLeavesNoTrace :
    ({ board with blen := 0 } : State).busy = false ∧
    ∃ t u v, ({ board with blen := 0 } : State).runsCommand .unpack t ∧ t.err ≠ .none ∧
      t.runsCommand .pack u ∧ ({ board with blen := 0 } : State).runsCommand .pack v ∧
      u.err = .none ∧ v.err = .none :=
  ⟨rfl, _, _, _, rfl, by decide, rfl, rfl, rfl, rfl⟩

/-- The last bit of the one full group of an 8 x 1 grid. -/
theorem test_meets_OtherBitOrderReversesGroups :
    1 ≤ 8 ∧ ceil8 (8 * 1) ≤ [0x01#8].length ∧ 8 * (7 / 8) + 8 ≤ 8 * 1 := by decide

theorem test_meets_WaitEndsWithFinalStatus :
    let s : State := { pending .pack board with inputs := Script.wait 2 ++ [] }
    let s' : State := { board with inputs := [Script.rdreg 1] }
    s.busy = true ∧ s.inputs = Script.wait 2 ++ [] ∧ 1 ≤ 2 ∧ 2 ≤ 2 ∧
    s'.busy = false ∧ s'.inputs = Script.rdreg 1 :: [] :=
  ⟨rfl, rfl, by decide, by decide, rfl, rfl⟩

/-- VL1 on the checkerboard: EXEC falls after one poll, then before the first. -/
theorem test_meets_RoundTrip :
    let s : State := { board with
      inputs := Script.pack :: Script.wait 1 ++ Script.unpack :: Script.wait 0 ++ [] }
    s.busy = false ∧ s.dimsOk = true ∧
    s.inputs = Script.pack :: Script.wait 1 ++ Script.unpack :: Script.wait 0 ++ [] :=
  ⟨rfl, by decide, rfl⟩

/-- The smallest and the largest shape, from reset. -/
theorem test_meets_LoadedGridIsPacked (rows : Nat → Nat → Bit) :
    let s : State := { State.reset with
      inputs := Script.ldgrid 1 1 rows ++ Script.pack :: Script.wait 0 ++ [] }
    let s' : State := { State.reset with
      inputs := Script.ldgrid 127 127 rows ++ Script.pack :: Script.wait 0 ++ [] }
    s.busy = false ∧ s'.busy = false ∧ 1 ≤ 1 ∧ 1 ≤ 127 ∧ 127 ≤ 127 ∧
    s.inputs = Script.ldgrid 1 1 rows ++ Script.pack :: Script.wait 0 ++ [] ∧
    s'.inputs = Script.ldgrid 127 127 rows ++ Script.pack :: Script.wait 0 ++ [] :=
  ⟨rfl, rfl, by decide, by decide, by decide, rfl, rfl⟩

/-- The largest shape with the longest byte sequence, from reset. -/
theorem test_meets_LoadedBytesAreUnpacked :
    let B := List.replicate 4095 0xFF#8
    let s : State := { State.reset with
      inputs := Script.ldbytes B ++ Script.wrreg 2 (BitVec.ofNat 32 127) ::
        Script.wrreg 3 (BitVec.ofNat 32 127) :: Script.unpack :: Script.wait 0 ++ [] }
    s.busy = false ∧ 1 ≤ 127 ∧ 127 ≤ 127 ∧ ceil8 (127 * 127) ≤ B.length ∧ B.length ≤ 4095 ∧
    s.inputs = Script.ldbytes B ++ Script.wrreg 2 (BitVec.ofNat 32 127) ::
      Script.wrreg 3 (BitVec.ofNat 32 127) :: Script.unpack :: Script.wait 0 ++ [] := by
  refine ⟨rfl, by decide, by decide, ?_, ?_, rfl⟩
  · rw [List.length_replicate]; decide
  · rw [List.length_replicate]

theorem test_board_inv : board.Inv :=
  ⟨⟨by decide, by decide⟩, by decide, by decide, by decide⟩

/-- On this hardware and at other parameters. -/
theorem test_meets_StepKeepsInvariant :
    (board.Inv ∧ ∃ t, step board = .next t) ∧
    narrow.valid = true ∧ (narrowPending .pack).Inv ∧ ∃ t, stepAt (narrowPending .pack) = .next t :=
  ⟨⟨test_board_inv, _, rfl⟩, by decide, ⟨⟨by decide, by decide⟩, by decide, by decide, by decide⟩, _, rfl⟩

/-- `board` with another status. -/
def withStatus (c : Command) (e : ErrorCode) (busy : Bool) : State := { board with op := c, err := e, busy := busy }

/-- The seven values of the status word, each in a state that meets the invariant (VS1 to VS8). -/
theorem test_meets_StatusWordValues :
    ((withStatus .pack .none false).Inv ∧ (withStatus .pack .none false).statusWord = 0x0) ∧
    ((withStatus .pack .none true).Inv ∧ (withStatus .pack .none true).statusWord = 0x1) ∧
    ((withStatus .unpack .none true).Inv ∧ (withStatus .unpack .none true).statusWord = 0x3) ∧
    ((withStatus .unpack .none false).Inv ∧ (withStatus .unpack .none false).statusWord = 0x2) ∧
    ((withStatus .pack .dimensionMismatch false).Inv ∧
      (withStatus .pack .dimensionMismatch false).statusWord = 0x8) ∧
    ((withStatus .unpack .dimensionMismatch false).Inv ∧
      (withStatus .unpack .dimensionMismatch false).statusWord = 0xA) ∧
    (withStatus .unpack .insufficientData false).Inv ∧
      (withStatus .unpack .insufficientData false).statusWord = 0x6 := by
  refine ⟨⟨?_, by decide⟩, ⟨?_, by decide⟩, ⟨?_, by decide⟩, ⟨?_, by decide⟩, ⟨?_, by decide⟩,
    ⟨?_, by decide⟩, ?_, by decide⟩ <;>
  exact ⟨⟨by decide, by decide⟩, by decide, by decide, by decide⟩

/-- A start that sets BUSY, and an EXEC and a reset that clear it. -/
theorem test_meets_BusyChangesOnlyByStartExecReset :
    let s : State := { board with inputs := [Script.pack] }
    let p := pending .pack board
    let r : State := { pending .pack board with inputs := [.reset] }
    (s.busy = false ∧ s.takesWrite 0 ∧ ∃ t, step s = .next t ∧ t.busy = true) ∧
    (p.busy = true ∧ p.takesExec = true ∧ ∃ t, step p = .next t ∧ t.busy = false) ∧
    r.takesReset = true ∧ ∃ t, step r = .next t ∧ t.busy = false :=
  ⟨⟨rfl, ⟨rfl, 0, rfl⟩, _, rfl, rfl⟩, ⟨rfl, rfl, _, rfl, rfl⟩, rfl, _, rfl, rfl⟩

/-- For each item of the block a step that changes it. -/
theorem test_meets_OnlyNamedWritersChangeState :
    let run := fun (i : Event) (s : State) => ends (step { s with inputs := [i] })
    (run (Script.wrreg 2 7) board).width ≠ board.width ∧
    (run (Script.wrreg 3 7) board).height ≠ board.height ∧
    (run (Script.wrreg 4 7) board).blen ≠ board.blen ∧
    (run .exec (pending .pack { board with blen := 9 })).blen ≠ 9 ∧
    (run Script.unpack board).op ≠ board.op ∧
    (run Script.pack { board with err := .dimensionMismatch }).err ≠ .dimensionMismatch ∧
    (run .exec (pending .pack State.reset)).err ≠ .none ∧
    (run (Script.wrg 0 0 0) board).gm ≠ board.gm ∧
    (run .exec (pending .unpack { board with gm := [] })).gm ≠ [] ∧
    (run (Script.wrb 0 1) board).bm ≠ board.bm ∧
    (run .exec (pending .pack { board with bm := [] })).bm ≠ [] ∧
    ({ board with inputs := [Script.wrreg 2 7] } : State).takesReset = false := by decide

theorem test_meets_ErrorReportLasts :
    let s : State := { board with err := .dimensionMismatch, inputs := [Script.rdreg 1] }
    s.busy = false ∧ (∃ t, step s = .next t) ∧ s.takesReset = false ∧ ¬ s.takesWrite 0 :=
  ⟨rfl, ⟨_, rfl⟩, rfl, fun h => by
    obtain ⟨_, v, hv⟩ := h
    exact nomatch (show some (Instr.rdreg 1) = some (.wrreg 0 v) from hv)⟩

/-- A shape of nine cells at other parameters, and the smallest width for which R7 gives the bound. -/
theorem test_meets_PackedLengthFitsBlen :
    narrow.valid = true ∧ 0 < (narrowPending .pack).width.toInt ∧ 0 < (narrowPending .pack).height.toInt ∧
    let p : Config.Params := { xlen := 8, dimw := 4, lenw := 3 }
    4 ≤ p.dimw ∧ 2 * p.dimw - 5 ≤ p.lenw ∧ p.lmax = 7 := by decide

/-- A byte memory, a grid memory, and the last key of GM. -/
theorem test_meets_CanonicalMemoriesAreEqual :
    Memory.wf 16384 (Memory.set [(16383, 1#1)] 0 0) = true ∧ Memory.wf 16384 [(0, 0#1), (16383, 1#1)] = true ∧
    Memory.set [(16383, 1#1)] 0 0 = [(0, 0#1), (16383, 1#1)] ∧ gmKey 127 127 = 16383 ∧
    Memory.wf 4096 (Memory.set [(4095, 2#8)] 0 1) = true ∧ Memory.wf 4096 [(0, 1#8), (4095, 2#8)] = true ∧
    Memory.set [(4095, 2#8)] 0 1 = [(0, 1#8), (4095, 2#8)] := by decide

end Sys2Proof.Tests
end

section
/-! PROOF. The encoding: decoding an encoded instruction gives it back, and decoding gives no operand out of its
range (30_encoding.md R74 to R76, R79). -/

namespace Sys2Proof

variable {p : Config.Params}

/-- A number that fits the address field is the address's value (R74). -/
theorem addr_ofNat_toNat {n : Nat} (h : n < p.addrs) : (BitVec.ofNat p.aw n).toNat = n := by
  rw [BitVec.toNat_ofNat]
  exact Nat.mod_eq_of_lt h

/-- A number that fits the data field is the data word's value (R74). -/
theorem data_ofNat_toNat {v : Nat} (h : v < 2 ^ p.xlen) : (BitVec.ofNat p.xlen v).toNat = v := by
  rw [BitVec.toNat_ofNat]
  exact Nat.mod_eq_of_lt h

theorem addr_toNat_lt (a : Addr p) : a.toNat < p.addrs := a.isLt

/-- The data path is wide enough for bit 0, which selects the command (00_scope.md R7, 30_encoding.md R76). -/
theorem xlen_pos (hp : p.valid = true) : 0 < p.xlen := by
  obtain ⟨-, -, ⟨-, -, hx⟩, -⟩ := (Machine.valid_iff p).mp hp
  omega

/-- Decoding an encoded request, by its `sel` (R75). -/
theorem decode_encodeReq (sel : BitVec 3) (a : Addr p) (v : Nat) :
    decode (encodeReq sel a v) = decodeReq (reqWord sel a (BitVec.ofNat p.xlen v)) := rfl

/-- Where the data path has a bit 0, decoding undoes encoding on every well-formed instruction. -/
theorem decode_encode (hx : 0 < p.xlen) (i : Instr) (hi : i.wf p = true) : decode (encode i p) = i := by
  cases i with
  | rdreg n =>
    have hn : n < p.addrs := by simpa [Instr.wf] using hi
    simp [encode, decode_encodeReq, decodeReq, addr_ofNat_toNat hn]
  | wrreg n v =>
    obtain ⟨hn, hv⟩ : n < p.addrs ∧ v < 2 ^ p.xlen := by simpa [Instr.wf] using hi
    simp [encode, decode_encodeReq, decodeReq, addr_ofNat_toNat hn, data_ofNat_toNat hv]
  | rdg r c =>
    obtain ⟨ha, hc⟩ : p.gdim * r + c < p.addrs ∧ c < p.gdim := by simpa [Instr.wf] using hi
    simp [encode, decode_encodeReq, decodeReq, addrRow_gmAddr ha hc, addrCol_gmAddr ha hc]
  | wrg r c v =>
    obtain ⟨⟨ha, hc⟩, hv⟩ : (p.gdim * r + c < p.addrs ∧ c < p.gdim) ∧ v < 2 ^ p.xlen := by
      simpa [Instr.wf] using hi
    simp [encode, decode_encodeReq, decodeReq, addrRow_gmAddr ha hc, addrCol_gmAddr ha hc,
      data_ofNat_toNat hv]
  | rdb k =>
    have hk : k < p.addrs := by simpa [Instr.wf] using hi
    simp [encode, decode_encodeReq, decodeReq, addr_ofNat_toNat hk]
  | wrb k v =>
    obtain ⟨hk, hv⟩ : k < p.addrs ∧ v < 2 ^ p.xlen := by simpa [Instr.wf] using hi
    simp [encode, decode_encodeReq, decodeReq, addr_ofNat_toNat hk, data_ofNat_toNat hv]
  | rdrsv a =>
    have ha : a < p.addrs := by simpa [Instr.wf] using hi
    simp [encode, decode_encodeReq, decodeReq, addr_ofNat_toNat ha]
  | wrrsv a v =>
    obtain ⟨ha, hv⟩ : a < p.addrs ∧ v < 2 ^ p.xlen := by simpa [Instr.wf] using hi
    simp [encode, decode_encodeReq, decodeReq, addr_ofNat_toNat ha, data_ofNat_toNat hv]
  | pack => simp [encode, decode, decodeCmd]
  | unpack => simp [encode, decode, decodeCmd, hx]

/-- Every transaction a request word stands for has operands that fit (R80). -/
theorem wf_decodeReq (req : Req p) : (decodeReq req).wf p = true := by
  have ha := addr_toNat_lt (reqAddr req)
  have hv := (reqData req).isLt
  have hg : p.gdim * addrRow (reqAddr req) + addrCol (reqAddr req) < p.addrs := by
    rwa [addrRow_addrCol]
  have hc := addrCol_lt (reqAddr req)
  unfold decodeReq
  split <;> simp [Instr.wf, ha, hv, hg, hc]

/-- A command has no operand. -/
theorem wf_decodeCmd (word : Word p) : (decodeCmd word).wf p = true := by
  unfold decodeCmd
  split <;> rfl

theorem wf_decode (e : Encoded p) : (decode e).wf p = true := by
  cases e with
  | hreq req => exact wf_decodeReq req
  | cmd word => exact wf_decodeCmd word

/-- Settles O1: instruction by instruction, each field read back out of the word it was put into. -/
theorem decodeEncodeAgree : Obligations.DecodeEncodeAgree :=
  ⟨decode_encode (xlen_pos Machine.params_valid), fun _ hp => decode_encode (xlen_pos hp)⟩

/-- Settles O3: a field of `n` bits holds a number below `2 ^ n`. -/
theorem decodedIsWellFormed : Obligations.DecodedIsWellFormed :=
  ⟨wf_decode, fun _ => wf_decode⟩

end Sys2Proof
end

section
/-! PROOF. The invariant: which updates of the state keep it, and that every meaning and every step is made of
such updates (10_state.md R28; 60_exceptions.md R161, R163). -/

namespace Sys2Proof.Machine

variable {p : Config.Params}

/-- The invariant speaks of the block alone. -/
theorem State.Inv.of_toBlock {s t : State p} (hs : s.Inv) (h : t.toBlock = s.toBlock) : t.Inv := by
  simpa only [State.Inv, State.memWf, State.statusOk, h] using hs

/-- Without an error report the STATUS fields agree, whatever they are. -/
theorem State.statusOk_of_err_none {s : State p} (h : s.err = .none) : s.statusOk := by
  simp [State.statusOk, h]

theorem State.Inv.respond {s : State p} (hs : s.Inv) (v : Word p) : (s.respond v).Inv :=
  hs.of_toBlock rfl

theorem State.Inv.respondIdle {s : State p} (hs : s.Inv) (v : Word p) : (s.respondIdle v).Inv :=
  hs.of_toBlock (s.respondIdle_toBlock v)

theorem State.Inv.noResponse {s : State p} (hs : s.Inv) : s.noResponse.Inv :=
  hs.of_toBlock rfl

/-- A host write keeps the invariant if its effect does. -/
theorem State.Inv.hostWrite {s : State p} (hs : s.Inv) {f : State p → State p} (hf : (f s).Inv) :
    (s.hostWrite f).Inv := by
  unfold State.hostWrite
  split
  · exact hs.noResponse
  · exact hf.noResponse

/-- A command start clears the report (10_state.md R28). -/
theorem State.Inv.startCommand {s : State p} (hs : s.Inv) (v : Word p) : (s.startCommand v).Inv :=
  ⟨hs.1, State.statusOk_of_err_none rfl⟩

/-- A register write starts a command or leaves STATUS and the memories alone. -/
theorem State.Inv.writeRegister {s : State p} (hs : s.Inv) (n : Nat) (v : Word p) :
    (s.writeRegister n v).Inv := by
  unfold State.writeRegister
  split
  · exact hs.startCommand v
  all_goals exact hs

theorem State.Inv.gmWrite {s : State p} (hs : s.Inv) {r c : Nat} (hin : gmInRange r c p = true)
    (b : Bit) : (s.gmWrite r c b).Inv :=
  ⟨State.memWf_gmWrite hs.1 hin b, hs.2⟩

theorem State.Inv.bmWrite {s : State p} (hs : s.Inv) {k : Nat} (hk : k < p.nbyte) (v : Byte) :
    (s.bmWrite k v).Inv :=
  ⟨State.memWf_bmWrite hs.1 hk v, hs.2⟩

theorem State.Inv.resetEvent (s : State p) : s.resetEvent.Inv :=
  ⟨s.memWf_resetEvent, State.statusOk_of_err_none rfl⟩

theorem State.Inv.resetAt (p : Config.Params) : (State.resetAt p).Inv :=
  ⟨State.memWf_resetAt p, State.statusOk_of_err_none rfl⟩

/-- The failure both commands have (60_exceptions.md R162). -/
theorem State.Inv.fail_dimensionMismatch {s : State p} (hs : s.Inv) : (s.fail .dimensionMismatch).Inv :=
  ⟨hs.1, by simp [State.statusOk]⟩

/-- The failure only UNPACK has (60_exceptions.md R161). -/
theorem State.Inv.fail_insufficientData {s : State p} (hs : s.Inv) (hop : s.op = .unpack) :
    (s.fail .insufficientData).Inv :=
  ⟨hs.1, by simp [State.statusOk, hop]⟩

theorem State.Inv.packResult (hp : p.valid = true) {s : State p} (hs : s.Inv) : (packResult s).Inv :=
  ⟨State.memWf_packResult hp hs.1, State.statusOk_of_err_none rfl⟩

theorem State.Inv.unpackResult {s : State p} (hs : s.Inv) : (unpackResult s).Inv :=
  ⟨State.memWf_unpackResult hs.1, State.statusOk_of_err_none rfl⟩

theorem State.execEnabled_iff (s : State p) (c : Command) :
    s.execEnabled c = true ↔ s.busy = true ∧ s.op = c := by
  simp [State.execEnabled]

theorem execPack_keeps_inv (hp : p.valid = true) {s t : State p} (hs : s.Inv)
    (h : execPack s = .next t) : t.Inv := by
  obtain ⟨-, rfl⟩ | ⟨-, -, rfl⟩ | ⟨-, -, rfl⟩ := execPack_cases h
  · exact hs
  · exact hs.fail_dimensionMismatch
  · exact hs.packResult hp

theorem execUnpack_keeps_inv {s t : State p} (hs : s.Inv) (h : execUnpack s = .next t) : t.Inv := by
  obtain ⟨-, rfl⟩ | ⟨-, -, rfl⟩ | ⟨he, -, -, rfl⟩ | ⟨-, -, -, rfl⟩ := execUnpack_cases h
  · exact hs
  · exact hs.fail_dimensionMismatch
  · exact hs.fail_insufficientData ((s.execEnabled_iff .unpack).mp he).2
  · exact hs.unpackResult

/-- Every instruction, with any operands, keeps the invariant. -/
theorem execAt_keeps_inv (hp : p.valid = true) (i : Instr) {s t : State p} (hs : s.Inv)
    (h : execAt i s = .next t) : t.Inv := by
  cases i with
  | rdreg n =>
    obtain rfl := Host.Outcome.next.inj h
    exact hs.of_toBlock (s.readRegister_toBlock n)
  | wrreg n v =>
    obtain rfl := Host.Outcome.next.inj h
    exact hs.hostWrite (hs.writeRegister n _)
  | rdg r c =>
    obtain rfl := Host.Outcome.next.inj h
    split
    · exact hs.respondIdle _
    · exact hs.respond _
  | wrg r c v =>
    obtain rfl := Host.Outcome.next.inj h
    split
    · next hin => exact hs.hostWrite (hs.gmWrite hin _)
    · exact hs.noResponse
  | rdb k =>
    obtain rfl := Host.Outcome.next.inj h
    split
    · exact hs.respondIdle _
    · exact hs.respond _
  | wrb k v =>
    obtain rfl := Host.Outcome.next.inj h
    split
    · next hk => exact hs.hostWrite (hs.bmWrite hk _)
    · exact hs.noResponse
  | rdrsv a =>
    obtain rfl := Host.Outcome.next.inj h
    exact hs.respond 0
  | wrrsv a v =>
    obtain rfl := Host.Outcome.next.inj h
    exact hs.noResponse
  | pack => exact execPack_keeps_inv hp hs h
  | unpack => exact execUnpack_keeps_inv hs h

/-- Every step keeps the invariant: a request, the pending command, a reset or an idle turn. -/
theorem stepAt_keeps_inv (hp : p.valid = true) {s t : State p} (hs : s.Inv)
    (h : stepAt s = .next t) : t.Inv := by
  have hq (rest : List (Event p)) : State.Inv { s with inputs := rest } := hs.of_toBlock rfl
  obtain ⟨_, rest, -, h⟩ | ⟨-, h⟩ | ⟨_, -, rfl⟩ | ⟨-, -, rfl⟩ := stepAt_cases h
  · exact execAt_keeps_inv hp _ (hq rest) h
  · exact execAt_keeps_inv hp _ (hq _) h
  · exact State.Inv.resetEvent _
  · exact hq _

/-- Settles O52: this hardware is the machine at the default parameters, which are valid. -/
theorem stepKeepsInvariant : Obligations.StepKeepsInvariant :=
  ⟨fun s _ hs h => stepAt_keeps_inv params_valid hs (step_eq_stepAt s ▸ h),
    fun _ hp _ _ hs h => stepAt_keeps_inv hp hs h⟩

/-- Settles O53: no cell is written and no error reported. -/
theorem resetMeetsInvariant : Obligations.ResetMeetsInvariant :=
  ⟨State.Inv.resetAt _, State.Inv.resetAt⟩

end Sys2Proof.Machine
end

section
/-! PROOF. The EXEC steps compute the source's two functions (41_pack.md R112 to R115; 42_unpack.md R125 to
R129) on the grid and the bytes the memories hold (10_state.md R38, R39). -/

namespace Sys2Proof.Machine

variable {p : Config.Params}

/-! ### The calls, in terms of the state that declares the shape -/

theorem packCall_of_dimsOk {s : State p} (hd : s.dimsOk = true) :
    packCall s.gmRead s.width.toInt s.height.toInt = .ok (pack (gridOf s)) := by
  obtain ⟨hw, hh⟩ := s.dimsOk_iff.mp hd
  exact if_neg (by simp only [State.w, State.h] at hw hh; omega)

theorem packCall_of_not_dimsOk {s : State p} (hd : s.dimsOk = false) (cell : Nat → Nat → Bit) :
    packCall cell s.width.toInt s.height.toInt = .error .dimensionMismatch :=
  if_pos (s.dimsOk_eq_false.mp hd)

theorem unpackCall_of_not_dimsOk {s : State p} (hd : s.dimsOk = false) (B : List Byte) :
    unpackCall B s.width.toInt s.height.toInt = .error .dimensionMismatch :=
  if_pos (s.dimsOk_eq_false.mp hd)

/-- `L` as the source computes it, from the exact product of the declared dimensions. -/
theorem State.packedLen_eq {s : State p} (hd : s.dimsOk = true) :
    ceil8 (s.width.toInt * s.height.toInt).toNat = s.packedLen := by
  obtain ⟨hw, hh⟩ := s.dimsOk_iff.mp hd
  have h := Int.toNat_mul hw.le hh.le
  simp only [State.packedLen, State.cells, State.cols, State.rows, ← h]
  rfl

/-- With positive dimensions `unpack` fails exactly when there are fewer than `L` bytes (42_unpack.md R127). -/
theorem unpackCall_of_dimsOk {s : State p} (hd : s.dimsOk = true) (B : List Byte) :
    unpackCall B s.width.toInt s.height.toInt =
      if B.length < s.packedLen then .error .insufficientData else .ok (unpack B s.cols s.rows) := by
  obtain ⟨hw, hh⟩ := s.dimsOk_iff.mp hd
  rw [← State.packedLen_eq hd]
  exact if_neg (by simp only [State.w, State.h] at hw hh; omega)

@[simp] theorem bytesOf_length (s : State p) : (bytesOf s).length = s.len := by simp [bytesOf]

theorem bytesOf_getD (s : State p) {k : Nat} (hk : k < s.len) : (bytesOf s).getD k 0 = s.bmRead k := by
  simp [bytesOf, List.getD, hk]

theorem gridOf_cells (s : State p) : (gridOf s).height * (gridOf s).width = s.cells :=
  Nat.mul_comm _ _

/-! ### PACK -/

/-- The EXEC step of a pending PACK (41_pack.md R114, R115). -/
theorem execPack_of_enabled {s : State p} (hb : s.busy = true) (hop : s.op = .pack) :
    execPack s = .next (if s.dimsOk then packResult s else s.fail .dimensionMismatch) := by
  simp [execPack, State.execEnabled, hb, hop]

/-- A byte PACK writes is the byte of `pack` there. -/
theorem packByte_eq_pack_getD {s : State p} {k : Nat} (hk : k < s.packedLen) :
    packByte s k = (pack (gridOf s)).getD k 0 := by
  rw [pack_getD _ (by rwa [gridOf_cells]), gridOf_cells]
  rfl

theorem pack_gridOf_length (s : State p) : (pack (gridOf s)).length = s.packedLen := by
  simp [pack, gridOf_cells, State.packedLen]

/-- BM after a successful PACK, from 0 to BLEN - 1, is `pack` of the grid in GM. -/
theorem bytesOf_packResult (hp : p.valid = true) (s : State p) :
    bytesOf (packResult s) = pack (gridOf s) := by
  have hlen : (packResult s).len = s.packedLen := s.packedLen_toNat hp
  apply List.ext_getElem
  · rw [bytesOf_length, hlen, pack_gridOf_length]
  · intro k hk hk'
    rw [bytesOf_length, hlen] at hk
    calc (bytesOf (packResult s))[k]
        = (packResult s).bmRead k := by simp [bytesOf]
      _ = packByte s k := by rw [packResult_bmRead, if_pos hk]
      _ = (pack (gridOf s)).getD k 0 := packByte_eq_pack_getD hk
      _ = (pack (gridOf s))[k] := List.getD_eq_getElem _ _ hk'

/-- Settles O28: with positive dimensions the step writes `pack` of the grid, else it reports the error of the
call. -/
theorem packComputesPack : Obligations.PackComputesPack := by
  refine ⟨exec_eq_execAt .pack, fun p hp s hb hop => ⟨_, execPack_of_enabled hb hop, ?_⟩⟩
  cases hd : s.dimsOk with
  | false =>
    rw [packCall_of_not_dimsOk hd]
    rfl
  | true =>
    rw [packCall_of_dimsOk hd]
    exact ⟨bytesOf_packResult hp s, rfl⟩

/-! ### UNPACK -/

/-- The EXEC step of a pending UNPACK (42_unpack.md R128, R129). -/
theorem execUnpack_of_enabled {s : State p} (hb : s.busy = true) (hop : s.op = .unpack) :
    execUnpack s = .next (if s.dimsOk then
      if s.len < s.packedLen then s.fail .insufficientData else unpackResult s
    else s.fail .dimensionMismatch) := by
  simp [execUnpack, State.execEnabled, hb, hop]

/-- The corner of GM after a successful UNPACK is `unpack` of the bytes in BM. -/
theorem gridOf_unpackResult_same {s : State p} (hl : s.packedLen ≤ s.len) :
    (gridOf (unpackResult s)).Same (unpack (bytesOf s) s.cols s.rows) := by
  refine ⟨rfl, rfl, fun r c (hr : r < s.rows) (hc : c < s.cols) => ?_⟩
  have hn : r * s.cols + c < s.cells := State.flat_lt hr hc
  have hk : (r * s.cols + c) / 8 < s.len := by
    simp only [State.packedLen, ceil8] at hl
    omega
  calc (unpackResult s).gmRead r c
      = unpackBit s (r * s.cols + c) := unpackResult_gmRead_corner s hr hc
    _ = byteBit ((bytesOf s).getD ((r * s.cols + c) / 8) 0) ((r * s.cols + c) % 8) := by
        rw [bytesOf_getD s hk, unpackBit]
    _ = (unpack (bytesOf s) s.cols s.rows).cell r c :=
        (unpack_cell _ hr hc (by rwa [bytesOf_length])).symm

/-- Settles O34: the step's checks are those of the call, in its order, and its cells those of `unpack`. -/
theorem unpackComputesUnpack : Obligations.UnpackComputesUnpack := by
  refine ⟨exec_eq_execAt .unpack, fun p _ s hb hop => ⟨_, execUnpack_of_enabled hb hop, ?_⟩⟩
  cases hd : s.dimsOk with
  | false =>
    rw [unpackCall_of_not_dimsOk hd]
    rfl
  | true =>
    rw [unpackCall_of_dimsOk hd, bytesOf_length]
    by_cases hl : s.len < s.packedLen
    · simp only [hl, if_true]
      rfl
    · simp only [hl, if_true, if_false]
      exact ⟨gridOf_unpackResult_same (Nat.le_of_not_lt hl), rfl⟩

end Sys2Proof.Machine
end

section
/-! PROOF. The parameters: the machine at parameters given, and that every grid and packed sequence fits
(00_scope.md R6, R7). -/

namespace Sys2Proof.Machine

variable {p : Config.Params}

/-- A machine exists exactly where the constraints of R7 are met. -/
theorem coreAt_isSome (p : Config.Params) : (coreAt p).isSome = p.valid := by
  unfold coreAt
  cases p.valid <;> rfl

/-- The machine at the default parameters is that of this hardware. -/
theorem coreAt_params : coreAt Config.params = some Sys2Proof.core := by
  have hstep : (stepAt : State → _) = step := funext fun s => (step_eq_stepAt s).symm
  rw [coreAt, if_pos params_valid, hstep]
  rfl

theorem State.cells_pos {s : State p} (h : s.dimsOk = true) : 0 < s.cells :=
  Nat.mul_pos (State.cols_pos h) (State.rows_pos h)

/-- The least number of bytes for at least one cell is at least one. -/
theorem ceil8_pos {n : Nat} (h : 0 < n) : 0 < ceil8 n := by
  unfold ceil8
  omega

/-- `LMAX` in closed form, with `DIMW = e + 4` and `x = 2 ^ e`: the largest grid has `(8x - 1)^2` cells. -/
theorem lmax_of_dimw {e : Nat} (h : p.dimw = e + 4) :
    p.lmax = 8 * (2 ^ e * 2 ^ e) - 2 * 2 ^ e + 1 := by
  have hd : p.dmax = 8 * 2 ^ e - 1 := by
    rw [Config.Params.dmax, h, Nat.add_sub_assoc (by omega), pow_add]
    omega
  obtain ⟨y, hy⟩ : ∃ y, 2 ^ e = y + 1 := Nat.exists_eq_add_of_le' Nat.one_le_two_pow
  have hcells : p.nmax = 64 * (y * y) + 112 * y + 49 := by
    rw [Config.Params.nmax, hd, hy, show 8 * (y + 1) - 1 = 8 * y + 7 by omega]
    ring
  have hsq : (y + 1) * (y + 1) = y * y + 2 * y + 1 := by ring
  rw [Config.Params.lmax, hcells, hy, hsq]
  omega

/-- The bound of R7 on `LENW`, from a width of 4 on. -/
theorem lmax_closed_form (hd : 4 ≤ p.dimw) :
    p.lmax = 2 ^ (2 * p.dimw - 5) - 2 ^ (p.dimw - 3) + 1 := by
  obtain ⟨e, he⟩ := Nat.exists_eq_add_of_le' hd
  have h1 : 2 ^ (2 * p.dimw - 5) = 8 * (2 ^ e * 2 ^ e) := by
    rw [he, show 2 * (e + 4) - 5 = 3 + (e + e) by omega, pow_add, pow_add]
    rfl
  have h2 : 2 ^ (p.dimw - 3) = 2 * 2 ^ e := by
    rw [he, show e + 4 - 3 = 1 + e by omega, pow_add]
    rfl
  rw [lmax_of_dimw he, h1, h2]

theorem lmax_fits_lenw (hd : 4 ≤ p.dimw) (hl : 2 * p.dimw - 5 ≤ p.lenw) :
    p.lmax ≤ 2 ^ p.lenw - 1 := by
  have hlen : 2 ^ (2 * p.dimw - 5) ≤ 2 ^ p.lenw := Nat.pow_le_pow_right (by omega) hl
  have hlow : 2 ^ 1 ≤ 2 ^ (p.dimw - 3) := Nat.pow_le_pow_right (by omega) (by omega)
  have hmid : 2 ^ (p.dimw - 3) ≤ 2 ^ (2 * p.dimw - 5) := Nat.pow_le_pow_right (by omega) (by omega)
  rw [lmax_closed_form hd]
  omega

/-- Settles O59: the table by evaluation, the machines by their equality, the sizes by the bounds of the
dimensions, and the closed form by arithmetic in `2 ^ (DIMW - 4)`. -/
theorem packedLengthFitsBlen : Obligations.PackedLengthFitsBlen := by
  refine ⟨by decide, ⟨rfl, rfl, rfl, rfl, rfl⟩, fun p => ⟨coreAt_isSome p, rfl, rfl, rfl, rfl, rfl⟩,
    ⟨coreAt_params, exec_eq_execAt, step_eq_stepAt, rfl⟩, ?capacity,
    fun p hd hl => ⟨lmax_closed_form hd, lmax_fits_lenw hd hl⟩⟩
  case capacity =>
    intro p hp s hw hh
    have hd : s.dimsOk = true := s.dimsOk_iff.mpr ⟨hw, hh⟩
    obtain ⟨-, -, -, hfit⟩ := (valid_iff p).mp hp
    exact ⟨s.cols_le, s.rows_le, dmax_lt_gdim p, State.cells_pos hd, s.cells_le_nmax,
      ceil8_pos (State.cells_pos hd), s.packedLen_le_lmax, hfit, s.packedLen_toNat hp⟩

end Sys2Proof.Machine
end

section
/-! PROOF. What a step runs (00_scope.md R5; 10_state.md R27), and the places that hold no state
(20_memory.md R52; 40_host_access.md R90, R91, R97). -/

namespace Sys2Proof.Machine

variable {p : Config.Params}

/-! ### A step -/

theorem step_of_run {s t : State} {i : Instr} (h : fetch s = .run i t) : step s = exec i t := by
  rw [step, h]

theorem step_of_done {s t : State} (h : fetch s = .done t) : step s = .next t := by
  rw [step, h]

/-- BPU's turn with a command pending runs the instruction `OP` names. -/
theorem bpuTurn_runs_command {s : State} (hb : s.busy = true) :
    bpuTurn s = .run (commandInstr s.op) s := by
  rw [bpuTurn_of_busy hb, decodeCmd_word (by decide)]

/-- Settles O8. -/
theorem stepRunsRequest : Obligations.StepRunsRequest :=
  fun _ _ _ h => step_of_run (fetch_request h)

/-- Settles O9: both when BPU's turn comes and when no event is left, the step is BPU's turn. -/
theorem stepRunsPendingCommand : Obligations.StepRunsPendingCommand := by
  refine fun s => ⟨fun hb => ⟨fun hnil => ?_, fun rest hexec => ?_⟩,
    fun hb => ⟨fun hnil => ?_, fun rest hexec => ?_⟩⟩
  · exact step_of_run ((fetch_nil hnil).trans (bpuTurn_runs_command hb))
  · exact step_of_run ((fetch_exec hexec).trans (bpuTurn_runs_command (s := { s with inputs := rest }) hb))
  · exact step_of_done ((fetch_nil hnil).trans (bpuTurn_of_idle hb))
  · exact step_of_done ((fetch_exec hexec).trans (bpuTurn_of_idle (s := { s with inputs := rest }) hb))

/-! ### Places that hold no state -/

/-- Equal blocks read the same everywhere. -/
theorem State.blockKept_of_toBlock {s t : State p} (h : t.toBlock = s.toBlock) : s.blockKept t :=
  ⟨h, State.gmRead_congr (congrArg Block.gm h) (congrArg Block.epoch h),
    State.bmRead_congr (congrArg Block.bm h) (congrArg Block.epoch h)⟩

/-- An instruction that only answers 0 leaves the block, the events and the draws as they are. -/
theorem inert_of_respond {s : State p} {o : Host.Outcome (State p) Fault Refusal}
    (h : o = .next (s.respond 0)) :
    ∃ t, o = .next t ∧ t.rdata = some 0 ∧ s.blockKept t ∧ s.queueKept t :=
  ⟨_, h, rfl, State.blockKept_of_toBlock rfl, rfl, rfl⟩

/-- An ignored write leaves the block, the events and the draws as they are. -/
theorem inert_of_noResponse {s : State p} {o : Host.Outcome (State p) Fault Refusal}
    (h : o = .next s.noResponse) : ∃ t, o = .next t ∧ s.blockKept t ∧ s.queueKept t :=
  ⟨_, h, State.blockKept_of_toBlock rfl, rfl, rfl⟩

/-- A row from `GDIM` on is out of range of GM (20_memory.md R52). -/
theorem gmInRange_of_gdim_le {r : Nat} (h : p.gdim ≤ r) (c : Nat) : gmInRange r c p = false := by
  simp [gmInRange, Nat.not_lt.mpr h]

theorem execRdg_outOfRange {r : Nat} (h : p.gdim ≤ r) (c : Nat) (s : State p) :
    execRdg r c s = .next (s.respond 0) := by
  simp [execRdg, gmInRange_of_gdim_le h]

theorem execWrg_outOfRange {r : Nat} (h : p.gdim ≤ r) (c v : Nat) (s : State p) :
    execWrg r c v s = .next s.noResponse := by
  simp [execWrg, gmInRange_of_gdim_le h]

theorem execRdb_outOfRange {k : Nat} (h : p.nbyte ≤ k) (s : State p) :
    execRdb k s = .next (s.respond 0) := by
  simp [execRdb, Nat.not_lt.mpr h]

theorem execWrb_outOfRange {k : Nat} (h : p.nbyte ≤ k) (v : Nat) (s : State p) :
    execWrb k v s = .next s.noResponse := by
  simp [execWrb, Nat.not_lt.mpr h]

theorem execRdreg_reserved {n : Nat} (h : 5 ≤ n) (s : State p) :
    execRdreg n s = .next (s.respond 0) := by
  rw [execRdreg, s.readRegister_reserved h]

theorem execWrreg_reserved {n : Nat} (h : 5 ≤ n) (v : Nat) (s : State p) :
    execWrreg n v s = .next s.noResponse := by
  rw [execWrreg, State.hostWrite, s.writeRegister_reserved h, ite_self]

/-- Settles O20: each such read only answers 0, each such write is ignored. -/
theorem reservedSpaceIsInert : Obligations.ReservedSpaceIsInert :=
  ⟨fun _ _ _ => ⟨inert_of_respond rfl, inert_of_noResponse rfl⟩,
    fun _ _ c v s =>
      ⟨fun hrow => ⟨inert_of_respond (execRdg_outOfRange hrow c s),
          inert_of_noResponse (execWrg_outOfRange hrow c v s)⟩,
        fun hbyte => ⟨inert_of_respond (execRdb_outOfRange hbyte s),
          inert_of_noResponse (execWrb_outOfRange hbyte v s)⟩,
        fun hreg => ⟨inert_of_respond (execRdreg_reserved hreg s),
          inert_of_noResponse (execWrreg_reserved hreg v s)⟩,
        inert_of_respond rfl, inert_of_noResponse rfl⟩⟩

end Sys2Proof.Machine
end

section
/-! PROOF. A command as a whole, from its start to its end: what the start forgets and what a failure leaves
(40_host_access.md R92; 60_exceptions.md R166; 10_state.md R34, R35). -/

namespace Sys2Proof.Machine

variable {p : Config.Params}

/-- The state in which a command's EXEC step runs when it follows the start at once (40_host_access.md R92). -/
def State.started (s : State p) (c : Command) : State p :=
  { s with rdata := none, op := c, err := .none, busy := true }

@[simp] theorem State.started_busy (s : State p) (c : Command) : (s.started c).busy = true := rfl
@[simp] theorem State.started_op (s : State p) (c : Command) : (s.started c).op = c := rfl
@[simp] theorem State.started_err (s : State p) (c : Command) : (s.started c).err = .none := rfl
@[simp] theorem State.started_dimsOk (s : State p) (c : Command) : (s.started c).dimsOk = s.dimsOk := rfl

/-- A start overwrites all that a failed command has written. -/
@[simp] theorem State.started_fail_started (s : State p) (c d : Command) (e : ErrorCode) :
    ((s.started c).fail e).started d = s.started d := rfl

/-- A start and the EXEC step right after it: the command's meaning on the started state. -/
theorem State.runsCommand_iff {s : State} (hb : s.busy = false) (c : Command) (t : State) :
    s.runsCommand c t ↔ exec (commandInstr c) (s.started c) = .next t := by
  have hstart := step_start (s := { s with inputs := Script.start c :: .exec :: s.inputs }) hb rfl
  have hexec := (stepRunsPendingCommand
    { s.started c with inputs := .exec :: s.inputs }).1 rfl |>.2 s.inputs rfl
  rw [State.runsCommand, State.runsTo_succ]
  constructor
  · rintro ⟨u, hu, hrun⟩
    obtain rfl := Host.Outcome.next.inj (hstart.symm.trans hu)
    exact hexec.symm.trans ((State.runsTo_one _ t).mp hrun)
  · intro h
    exact ⟨_, hstart, (State.runsTo_one _ t).mpr (hexec.trans h)⟩

/-- Everything the EXEC step of a pending command can do. -/
theorem exec_command_cases {s t : State} (hb : s.busy = true) (h : exec (commandInstr s.op) s = .next t) :
    (∃ e, e ≠ .none ∧ t = s.fail e) ∨
    (s.op = .pack ∧ s.dimsOk = true ∧ t = packResult s) ∨
    (s.op = .unpack ∧ s.dimsOk = true ∧ s.packedLen ≤ s.len ∧ t = unpackResult s) := by
  have henabled : s.execEnabled s.op = true := (s.execEnabled_iff _).mpr ⟨hb, rfl⟩
  cases hop : s.op with
  | pack =>
    rw [hop] at h henabled
    obtain ⟨hoff, -⟩ | ⟨-, -, rfl⟩ | ⟨-, hd, rfl⟩ := execPack_cases h
    · exact absurd henabled (by simp [hoff])
    · exact .inl ⟨_, by decide, rfl⟩
    · exact .inr (.inl ⟨rfl, hd, rfl⟩)
  | unpack =>
    rw [hop] at h henabled
    obtain ⟨hoff, -⟩ | ⟨-, -, rfl⟩ | ⟨-, -, -, rfl⟩ | ⟨-, hd, hl, rfl⟩ := execUnpack_cases h
    · exact absurd henabled (by simp [hoff])
    · exact .inl ⟨_, by decide, rfl⟩
    · exact .inl ⟨_, by decide, rfl⟩
    · exact .inr (.inr ⟨rfl, hd, hl, rfl⟩)

/-- A command that reports an error has only failed (60_exceptions.md R166). -/
theorem eq_fail_of_command_err {s t : State} (hb : s.busy = true)
    (h : exec (commandInstr s.op) s = .next t) (herr : t.err ≠ .none) : ∃ e, t = s.fail e := by
  obtain ⟨e, -, rfl⟩ | ⟨-, -, rfl⟩ | ⟨-, -, -, rfl⟩ := exec_command_cases hb h
  · exact ⟨e, rfl⟩
  · exact absurd rfl herr
  · exact absurd rfl herr

/-- Settles O46: the second command starts from one state whether or not the failed one ran before it. -/
theorem failedCommandLeavesNoTrace : Obligations.FailedCommandLeavesNoTrace := by
  intro s t u v c d hb hfailed herr hafter halone
  rw [State.runsCommand_iff hb] at hfailed halone
  obtain ⟨e, rfl⟩ := eq_fail_of_command_err (s := s.started c) rfl hfailed herr
  rw [State.runsCommand_iff rfl, State.started_fail_started, halone] at hafter
  exact congrArg State.toBlock (Host.Outcome.next.inj hafter).symm

/-- Either command refuses a width or a height that is not positive (60_exceptions.md R162). -/
theorem exec_command_of_not_dimsOk {s : State} (hb : s.busy = true) (hd : s.dimsOk = false) :
    exec (commandInstr s.op) s = .next (s.fail .dimensionMismatch) := by
  cases hop : s.op with
  | pack => exact (execPack_of_enabled hb hop).trans (by simp [hd])
  | unpack => exact (execUnpack_of_enabled hb hop).trans (by simp [hd])

/-- Settles O12: after reset WIDTH and HEIGHT are 0, so the command fails. -/
theorem resetStateIsIdleAndRefusesCommands : Obligations.ResetStateIsIdleAndRefusesCommands := by
  refine ⟨rfl, rfl, rfl, rfl, rfl, rfl, fun c => ?_⟩
  have hfails : State.reset.runsCommand c ((State.reset.started c).fail .dimensionMismatch) :=
    (State.runsCommand_iff rfl c _).mpr (exec_command_of_not_dimsOk (s := State.reset.started c) rfl rfl)
  exact ⟨_, hfails, rfl, rfl, rfl, State.gmRead_congr rfl rfl, State.bmRead_congr rfl rfl, rfl⟩

end Sys2Proof.Machine
end

section
/-! PROOF. Which steps write which item of the block: the column 'written by' of 10_state.md R20. -/

namespace Sys2Proof.Machine

variable {p : Config.Params}

/-! ### What a register write leaves unchanged -/

theorem State.writeRegister_width_of_ne (s : State p) {n : Nat} (hn : n ≠ 2) (v : Word p) :
    (s.writeRegister n v).width = s.width := by
  unfold State.writeRegister; split <;> trivial

theorem State.writeRegister_height_of_ne (s : State p) {n : Nat} (hn : n ≠ 3) (v : Word p) :
    (s.writeRegister n v).height = s.height := by
  unfold State.writeRegister; split <;> trivial

theorem State.writeRegister_blen_of_ne (s : State p) {n : Nat} (hn : n ≠ 4) (v : Word p) :
    (s.writeRegister n v).blen = s.blen := by
  unfold State.writeRegister; split <;> trivial

/-- Only a write to CMD touches STATUS (40_host_access.md R91, R92). -/
theorem State.writeRegister_status_of_ne (s : State p) {n : Nat} (hn : n ≠ 0) (v : Word p) :
    (s.writeRegister n v).busy = s.busy ∧ (s.writeRegister n v).op = s.op ∧
      (s.writeRegister n v).err = s.err := by
  unfold State.writeRegister; split <;> trivial

theorem State.writeRegister_epoch (s : State p) (n : Nat) (v : Word p) :
    (s.writeRegister n v).epoch = s.epoch := by
  unfold State.writeRegister; split <;> rfl

/-- The block after a register write does not depend on the events still to come. -/
theorem State.writeRegister_toBlock_inputs (s : State p) (rest : List (Event p)) (n : Nat) (v : Word p) :
    (State.writeRegister { s with inputs := rest } n v).toBlock = (s.writeRegister n v).toBlock := by
  unfold State.writeRegister; split <;> rfl

/-- A host write is ignored, or it is performed while idle (40_host_access.md R98). -/
theorem State.hostWrite_toBlock_cases (s : State p) (f : State p → State p) :
    (s.hostWrite f).toBlock = s.toBlock ∨
    (s.busy = false ∧ (s.hostWrite f).toBlock = (f s).toBlock) := by
  cases hb : s.busy with
  | true => exact .inl (by rw [State.hostWrite_of_busy hb, State.noResponse_toBlock])
  | false => exact .inr ⟨rfl, by rw [State.hostWrite_of_idle hb, State.noResponse_toBlock]⟩

/-! ### The step each event makes -/

theorem State.takesRequest_of_request {s : State p} {req : Req p} {rest : List (Event p)}
    (h : s.inputs = .request req :: rest) : s.takesRequest = some (decodeReq req) := by
  simp [State.takesRequest, h]

theorem State.takesReset_of_reset {s : State p} {rest : List (Event p)} (h : s.inputs = .reset :: rest) :
    s.takesReset = true := by
  simp [State.takesReset, h]

theorem State.busy_of_takesExec {s : State p} (h : s.takesExec = true) : s.busy = true := by
  rw [State.takesExec, Bool.and_eq_true] at h
  exact h.1

theorem step_of_takesRequest {s : State} {i : Instr} (h : s.takesRequest = some i) :
    step s = exec i { s with inputs := s.inputs.tail } := by
  unfold State.takesRequest at h
  split at h
  · next req rest hin =>
    obtain rfl := Option.some.inj h
    rw [step_of_run (fetch_request hin), hin, List.tail_cons]
  all_goals cases h

theorem step_of_takesReset {s : State} (h : s.takesReset = true) :
    step s = .next (State.resetEvent { s with inputs := s.inputs.tail }) := by
  unfold State.takesReset at h
  split at h
  · next rest hin => rw [step_of_done (fetch_reset hin), hin, List.tail_cons]
  all_goals cases h

theorem step_of_takesExec {s : State} (h : s.takesExec = true) :
    step s = exec (commandInstr s.op) { s with inputs := s.inputs.tail } := by
  have hb := State.busy_of_takesExec h
  match hin : s.inputs with
  | [] =>
    have hs : ({ s with inputs := [] } : State) = s := by rw [← hin]
    rw [List.tail_nil, hs]
    exact ((stepRunsPendingCommand s).1 hb).1 hin
  | .exec :: rest => exact ((stepRunsPendingCommand s).1 hb).2 rest hin
  | .request _ :: _ => simp [State.takesExec, hin] at h
  | .reset :: _ => simp [State.takesExec, hin] at h

/-- A request word never runs a command: EXEC is BPU's step, not the host's (00_scope.md R5). -/
theorem decodeReq_ne_command (req : Req p) (c : Command) : decodeReq req ≠ commandInstr c := by
  unfold decodeReq
  cases c <;> split <;> simp [commandInstr]

/-! ### The writers of the block -/

/-- Everything a step can do to the block: the writers of 10_state.md R20, each with the block it makes. -/
inductive State.BlockStep (s t : State) : Prop where
  | kept (hblock : t.toBlock = s.toBlock)
  | register (n v : Nat) (hb : s.busy = false) (hreq : s.takesRequest = some (.wrreg n v))
      (hblock : t.toBlock = (s.writeRegister n (dataWord v)).toBlock)
  | cell (r c v : Nat) (hb : s.busy = false) (hreq : s.takesRequest = some (.wrg r c v))
      (hblock : t.toBlock = (s.gmWrite r c (wordCell (p := Config.params) (dataWord v))).toBlock)
  | byte (k v : Nat) (hb : s.busy = false) (hreq : s.takesRequest = some (.wrb k v))
      (hblock : t.toBlock = (s.bmWrite k (wordByte (p := Config.params) (dataWord v))).toBlock)
  | failed (e : ErrorCode) (hexec : s.takesExec = true) (hblock : t.toBlock = (s.fail e).toBlock)
  | packed (hexec : s.takesExec = true) (hop : s.op = .pack) (hdims : s.dimsOk = true)
      (hblock : t.toBlock = (packResult s).toBlock)
  | unpacked (hexec : s.takesExec = true) (hop : s.op = .unpack) (hdims : s.dimsOk = true)
      (hlen : s.packedLen ≤ s.len) (hblock : t.toBlock = (unpackResult s).toBlock)
  | reset (hreset : s.takesReset = true) (hblock : t.toBlock = s.resetEvent.toBlock)

/-- A host request writes one register, cell or byte while idle, or nothing of the block. -/
theorem blockStep_of_request {s t : State} {i : Instr} {rest : List Event}
    (hreq : s.takesRequest = some i) (hi : ∀ c, i ≠ commandInstr c)
    (h : exec i { s with inputs := rest } = .next t) : s.BlockStep t := by
  cases i with
  | rdreg n =>
    obtain rfl := Host.Outcome.next.inj h
    exact .kept (State.readRegister_toBlock _ n)
  | wrreg n v =>
    obtain rfl := Host.Outcome.next.inj h
    obtain hkept | ⟨hb, hdone⟩ := State.hostWrite_toBlock_cases
      { s with inputs := rest } fun u => u.writeRegister n (dataWord v)
    · exact .kept hkept
    · exact .register n v hb hreq (hdone.trans (s.writeRegister_toBlock_inputs rest n _))
  | rdg r c =>
    obtain rfl := Host.Outcome.next.inj h
    split
    · exact .kept (State.respondIdle_toBlock _ _)
    · exact .kept rfl
  | wrg r c v =>
    obtain rfl := Host.Outcome.next.inj h
    split
    · obtain hkept | ⟨hb, hdone⟩ := State.hostWrite_toBlock_cases
        { s with inputs := rest } fun u => u.gmWrite r c (wordCell (p := Config.params) (dataWord v))
      · exact .kept hkept
      · exact .cell r c v hb hreq hdone
    · exact .kept rfl
  | rdb k =>
    obtain rfl := Host.Outcome.next.inj h
    split
    · exact .kept (State.respondIdle_toBlock _ _)
    · exact .kept rfl
  | wrb k v =>
    obtain rfl := Host.Outcome.next.inj h
    split
    · obtain hkept | ⟨hb, hdone⟩ := State.hostWrite_toBlock_cases
        { s with inputs := rest } fun u => u.bmWrite k (wordByte (p := Config.params) (dataWord v))
      · exact .kept hkept
      · exact .byte k v hb hreq hdone
    · exact .kept rfl
  | rdrsv a =>
    obtain rfl := Host.Outcome.next.inj h
    exact .kept rfl
  | wrrsv a v =>
    obtain rfl := Host.Outcome.next.inj h
    exact .kept rfl
  | pack => exact absurd rfl (hi .pack)
  | unpack => exact absurd rfl (hi .unpack)

/-- The EXEC step of the pending command fails, packs or unpacks. -/
theorem blockStep_of_exec {s t : State} {rest : List Event} (hexec : s.takesExec = true)
    (h : exec (commandInstr s.op) { s with inputs := rest } = .next t) : s.BlockStep t := by
  have hb := State.busy_of_takesExec hexec
  obtain ⟨e, -, rfl⟩ | ⟨hop, hd, rfl⟩ | ⟨hop, hd, hl, rfl⟩ :=
    exec_command_cases (s := { s with inputs := rest }) hb h
  · exact .failed e hexec rfl
  · exact .packed hexec hop hd rfl
  · exact .unpacked hexec hop hd hl rfl

/-- Every step is one of the writers, or leaves the block as it is. -/
theorem step_blockStep {s t : State} (h : step s = .next t) : s.BlockStep t := by
  obtain ⟨req, rest, hin, hreq⟩ | ⟨hexec, -⟩ | ⟨rest, hin, rfl⟩ | ⟨-, -, rfl⟩ := step_cases h
  · exact blockStep_of_request (State.takesRequest_of_request hin) (decodeReq_ne_command req) hreq
  · exact blockStep_of_exec hexec (step_of_takesExec hexec ▸ h)
  · exact .reset (State.takesReset_of_reset hin) rfl
  · exact .kept rfl

/-! ### BUSY -/

theorem busy_after_start {s t : State} (h : step s = .next t) (hw : s.takesWrite 0) : t.busy = true := by
  obtain ⟨hb, v, hreq⟩ := hw
  rw [step_of_takesRequest hreq] at h
  obtain rfl := Host.Outcome.next.inj h
  rw [State.hostWrite_of_idle (s := { s with inputs := s.inputs.tail }) hb]
  rfl

theorem idle_after_exec {s t : State} (h : step s = .next t) (hexec : s.takesExec = true) :
    t.busy = false := by
  have hb := State.busy_of_takesExec hexec
  rw [step_of_takesExec hexec] at h
  obtain ⟨e, -, rfl⟩ | ⟨-, -, rfl⟩ | ⟨-, -, -, rfl⟩ :=
    exec_command_cases (s := { s with inputs := s.inputs.tail }) hb h <;>
  rfl

theorem idle_after_reset {s t : State} (h : step s = .next t) (hreset : s.takesReset = true) :
    t.busy = false := by
  rw [step_of_takesReset hreset] at h
  obtain rfl := Host.Outcome.next.inj h
  rfl

/-- BUSY changes by command start, EXEC and reset alone (10_state.md R26). -/
theorem busy_changed {s t : State} (h : step s = .next t) (hne : t.busy ≠ s.busy) :
    s.takesWrite 0 ∨ s.takesExec = true ∨ s.takesReset = true := by
  cases step_blockStep h with
  | kept hblock | cell _ _ _ _ _ hblock | byte _ _ _ _ hblock => exact absurd (congrArg Block.busy hblock) hne
  | register n v hb hreq hblock =>
    by_cases hn : n = 0
    · exact .inl ⟨hb, v, hn ▸ hreq⟩
    · exact absurd (by rw [hblock, (s.writeRegister_status_of_ne hn _).1]) hne
  | failed _ hexec | packed hexec | unpacked hexec => exact .inr (.inl hexec)
  | reset hreset => exact .inr (.inr hreset)

/-- Settles O55: a start needs BUSY 0, and EXEC and reset leave it 0. -/
theorem busyChangesOnlyByStartExecReset : Obligations.BusyChangesOnlyByStartExecReset := by
  intro s t h
  refine ⟨fun hs ht => ?_, fun hs ht => ?_, busy_after_start h, fun hend => ?_⟩
  · obtain hw | hexec | hreset := busy_changed h (by simp [hs, ht])
    · exact hw
    · exact absurd ht (by simp [idle_after_exec h hexec])
    · exact absurd ht (by simp [idle_after_reset h hreset])
  · obtain hw | hend := busy_changed h (by simp [hs, ht])
    · exact absurd ht (by simp [busy_after_start h hw])
    · exact hend
  · exact hend.elim (idle_after_exec h) (idle_after_reset h)

/-! ### Every other item -/

/-- Settles O56: each writer's block differs from the one before in the items it is named for alone. -/
theorem onlyNamedWritersChangeState : Obligations.OnlyNamedWritersChangeState := by
  intro s t h hnoreset
  cases step_blockStep h with
  | kept hblock => simp [hblock]
  | register n v hb hreq hblock =>
    have hw : s.takesWrite n := ⟨hb, v, hreq⟩
    rw [hblock]
    refine ⟨fun hne => ?_, fun hne => ?_, fun hne => .inl ?_, fun hne => ?_, fun hne => .inl ?_,
      fun hne => absurd (s.writeRegister_gm n _) hne, fun hne => absurd (s.writeRegister_bm n _) hne,
      s.writeRegister_epoch n _⟩
    · exact not_imp_comm.mp (s.writeRegister_width_of_ne · _) hne ▸ hw
    · exact not_imp_comm.mp (s.writeRegister_height_of_ne · _) hne ▸ hw
    · exact not_imp_comm.mp (s.writeRegister_blen_of_ne · _) hne ▸ hw
    · exact not_imp_comm.mp (fun hn => (s.writeRegister_status_of_ne hn _).2.1) hne ▸ hw
    · exact not_imp_comm.mp (fun hn => (s.writeRegister_status_of_ne hn _).2.2) hne ▸ hw
  | cell r c v hb hreq hblock => simp [hblock, hb, hreq]
  | byte k v hb hreq hblock => simp [hblock, hb, hreq]
  | failed e hexec hblock => simp [hblock, hexec]
  | packed hexec hop hdims hblock => simp [hblock, hexec, hop, hdims]
  | unpacked hexec hop hdims hlen hblock => simp [hblock, hexec, hop, hdims, hlen]
  | reset hreset => simp [hreset] at hnoreset

/-- Settles O57: while idle there is no EXEC step, so the writers of OP, ERR and BUSY are excluded. -/
theorem errorReportLasts : Obligations.ErrorReportLasts := by
  intro s t hb h hnoreset hnostart
  have hnoexec : ¬ s.takesExec = true := fun hexec => by simp [State.busy_of_takesExec hexec] at hb
  obtain ⟨-, -, -, hop, herr, -⟩ := onlyNamedWritersChangeState s t h hnoreset
  have hop : t.op = s.op := not_imp_comm.mp hop hnostart
  have herr : t.err = s.err := not_imp_comm.mp herr (not_or.mpr ⟨hnostart, hnoexec⟩)
  have hbusy : t.busy = s.busy := not_imp_comm.mp (busy_changed h) (by simp [hnostart, hnoexec, hnoreset])
  exact ⟨herr, hop, State.statusWord_congr herr hop hbusy⟩

end Sys2Proof.Machine
end

section
/-! PROOF. The canonical form of a memory tells memories apart by their cells, and the key of GM tells its cells
apart (10_state.md R29, R30). -/

namespace Sys2Proof.Machine

variable {α : Type}

theorem Memory.wf_cons_iff (size k : Nat) (v : α) (rest : List (Nat × α)) :
    Memory.wf size ((k, v) :: rest) = true ↔
      k < size ∧ (∀ e ∈ rest, k < e.1) ∧ Memory.wf size rest = true := by
  simp [Memory.wf, and_assoc]

@[simp] theorem Memory.get?_cons_self (k : Nat) (v : α) (rest : List (Nat × α)) :
    Memory.get? ((k, v) :: rest) k = some v := by simp [Memory.get?]

theorem Memory.get?_cons_of_ne {k a : Nat} (h : k ≠ a) (v : α) (rest : List (Nat × α)) :
    Memory.get? ((k, v) :: rest) a = Memory.get? rest a := by simp [Memory.get?, h]

/-- A list whose keys are all above a key has no entry there. -/
theorem Memory.get?_eq_none_of_lt {a : Nat} {m : List (Nat × α)} (h : ∀ e ∈ m, a < e.1) :
    Memory.get? m a = none := by
  induction m with
  | nil => rfl
  | cons e rest ih =>
    rw [List.forall_mem_cons] at h
    rw [Memory.get?_cons_of_ne h.1.ne', ih h.2]

/-- The first key of a canonical list is the least key of any canonical list with the same cells. -/
theorem Memory.head_key_le {size k k' : Nat} {v v' : α} {rest rest' : List (Nat × α)}
    (hwf' : Memory.wf size ((k', v') :: rest') = true)
    (h : Memory.get? ((k, v) :: rest) k = Memory.get? ((k', v') :: rest') k) : k' ≤ k := by
  by_contra hlt
  obtain ⟨-, habove, -⟩ := (Memory.wf_cons_iff ..).mp hwf'
  have hnone : Memory.get? ((k', v') :: rest') k = none :=
    Memory.get?_eq_none_of_lt
      (List.forall_mem_cons.mpr ⟨Nat.lt_of_not_le hlt, fun e he => (Nat.lt_of_not_le hlt).trans (habove e he)⟩)
  simp [hnone] at h

/-- Canonical lists with the same cells are equal: their first entries agree, and so do the cells of the rest. -/
theorem Memory.ext_of_wf {size : Nat} {m m' : List (Nat × α)} (hm : Memory.wf size m = true)
    (hm' : Memory.wf size m' = true) (h : ∀ a, Memory.get? m a = Memory.get? m' a) : m = m' := by
  induction m generalizing m' with
  | nil =>
    cases m' with
    | nil => rfl
    | cons e' rest' => simpa [Memory.get?] using h e'.1
  | cons e rest ih =>
    obtain ⟨k, v⟩ := e
    cases m' with
    | nil => simpa [Memory.get?] using h k
    | cons e' rest' =>
      obtain ⟨k', v'⟩ := e'
      obtain rfl : k = k' := le_antisymm (Memory.head_key_le hm (h k').symm) (Memory.head_key_le hm' (h k))
      obtain rfl : v = v' := by simpa using h k
      obtain ⟨-, habove, hrest⟩ := (Memory.wf_cons_iff ..).mp hm
      obtain ⟨-, habove', hrest'⟩ := (Memory.wf_cons_iff ..).mp hm'
      have hcells : ∀ a, Memory.get? rest a = Memory.get? rest' a := by
        intro a
        by_cases ha : k = a
        · rw [← ha, Memory.get?_eq_none_of_lt habove, Memory.get?_eq_none_of_lt habove']
        · simpa only [Memory.get?_cons_of_ne ha] using h a
      rw [ih hrest hrest' hcells]

/-- Settles O60. -/
theorem canonicalMemoriesAreEqual : Obligations.CanonicalMemoriesAreEqual :=
  ⟨fun _ _ _ _ hm hm' h => Memory.ext_of_wf hm hm' h,
    fun _ _ _ _ hr hc _ hc' => ⟨rfl, gmKey_lt hr hc, gmKey_inj hc hc'⟩⟩

end Sys2Proof.Machine
end

section
/-! PROOF. What a cell or a byte reads as after a write to it while idle (20_memory.md R59; 40_host_access.md R93
to R96). -/

namespace Sys2Proof.Machine

variable {p : Config.Params}

/-! ### The requests to GM and BM in range, while idle -/

@[simp] theorem State.gmRead_noResponse (s : State p) (r c : Nat) :
    s.noResponse.gmRead r c = s.gmRead r c := rfl

@[simp] theorem State.bmRead_noResponse (s : State p) (k : Nat) : s.noResponse.bmRead k = s.bmRead k := rfl

theorem gmInRange_of_lt {r c : Nat} (hr : r < p.gdim) (hc : c < p.gdim) : gmInRange r c p = true := by
  simp [gmInRange, hr, hc]

theorem execRdg_of_idle {s : State p} (hb : s.busy = false) {r c : Nat} (hin : gmInRange r c p = true) :
    execRdg r c s = .next (s.respond (cellWord (s.gmRead r c))) := by
  rw [execRdg, if_pos hin, State.respondIdle_of_idle hb]

theorem execWrg_of_idle {s : State p} (hb : s.busy = false) {r c : Nat} (hin : gmInRange r c p = true)
    (v : Nat) :
    execWrg r c v s = .next (s.gmWrite r c (wordCell (dataWord (p := p) v))).noResponse := by
  rw [execWrg, if_pos hin, State.hostWrite_of_idle hb]

theorem execRdb_of_idle {s : State p} (hb : s.busy = false) {k : Nat} (hk : k < p.nbyte) :
    execRdb k s = .next (s.respond (byteWord (s.bmRead k))) := by
  rw [execRdb, if_pos hk, State.respondIdle_of_idle hb]

theorem execWrb_of_idle {s : State p} (hb : s.busy = false) {k : Nat} (hk : k < p.nbyte) (v : Nat) :
    execWrb k v s = .next (s.bmWrite k (wordByte (dataWord (p := p) v))).noResponse := by
  rw [execWrb, if_pos hk, State.hostWrite_of_idle hb]

/-! ### A write and the read after it -/

/-- WRG leaves the block idle, so the RDG after it answers what the cell has kept of the word. -/
theorem written_cell_reads_back {s : State p} (hb : s.busy = false) {r c : Nat}
    (hin : gmInRange r c p = true) (v : Nat) :
    ∃ t u, execWrg r c v s = .next t ∧ execRdg r c t = .next u ∧
      u.rdata = some (cellWord (wordCell (dataWord (p := p) v))) :=
  ⟨_, _, execWrg_of_idle hb hin v, execRdg_of_idle (by simpa using hb) hin, by simp [State.gmRead_gmWrite]⟩

/-- WRB leaves the block idle, so the RDB after it answers what the byte has kept of the word. -/
theorem written_byte_reads_back {s : State p} (hb : s.busy = false) {k : Nat} (hk : k < p.nbyte) (v : Nat) :
    ∃ t u, execWrb k v s = .next t ∧ execRdb k t = .next u ∧
      u.rdata = some (byteWord (wordByte (dataWord (p := p) v))) :=
  ⟨_, _, execWrb_of_idle hb hk v, execRdb_of_idle (by simpa using hb) hk, by simp [State.bmRead_bmWrite]⟩

/-- A cell keeps bit 0 of a word (40_host_access.md R94). -/
theorem wordCell_eq_extractLsb' (hx : 0 < p.xlen) (v : Word p) : wordCell v = v.extractLsb' 0 1 :=
  BitVec.setWidth_eq_extractLsb' hx

/-- A byte keeps bits 7 to 0 of a word (40_host_access.md R96). -/
theorem wordByte_eq_extractLsb' (hx : 8 ≤ p.xlen) (v : Word p) : wordByte v = v.extractLsb' 0 8 :=
  BitVec.setWidth_eq_extractLsb' hx

/-- Settles O24: the read gives back the kept bits, zero-extended. -/
theorem writtenLocationReadsBack : Obligations.WrittenLocationReadsBack := by
  refine fun s v hb => ⟨fun r c hr hc => ?cell, fun k hk => ?byte⟩
  case cell =>
    obtain ⟨t, u, hwrite, hread, hdata⟩ := written_cell_reads_back hb (gmInRange_of_lt hr hc) v.toNat
    rw [dataWord_toNat, wordCell_eq_extractLsb' (by decide)] at hdata
    exact ⟨t, u, hwrite, hread, hdata⟩
  case byte =>
    obtain ⟨t, u, hwrite, hread, hdata⟩ := written_byte_reads_back hb hk v.toNat
    rw [dataWord_toNat, wordByte_eq_extractLsb' (by decide)] at hdata
    exact ⟨t, u, hwrite, hread, hdata⟩

end Sys2Proof.Machine
end

section
/-! PROOF. The words of the tables: the word a transaction is decoded from, the place an address names, and the
command a word selects (30_encoding.md R74 to R76, R79, R83). -/

namespace Sys2Proof

variable {p : Config.Params}

/-! ### The eight values of `sel` -/

theorem decodeReq_rdg_fields (a : Addr p) (v : Word p) :
    decodeReq (reqWord 0b010#3 a v) = .rdg (addrRow a) (addrCol a) := by simp [decodeReq]

theorem decodeReq_wrg_fields (a : Addr p) (v : Word p) :
    decodeReq (reqWord 0b011#3 a v) = .wrg (addrRow a) (addrCol a) v.toNat := by simp [decodeReq]

theorem decodeReq_rdb (k : Addr p) (v : Word p) : decodeReq (reqWord 0b100#3 k v) = .rdb k.toNat := by
  simp [decodeReq]

theorem decodeReq_rdrsv (a : Addr p) (v : Word p) : decodeReq (reqWord 0b110#3 a v) = .rdrsv a.toNat := by
  simp [decodeReq]

theorem decodeReq_wrrsv (a : Addr p) (v : Word p) :
    decodeReq (reqWord 0b111#3 a v) = .wrrsv a.toNat v.toNat := by simp [decodeReq]

/-- Settles O4: one line of the table of R75 after another; the word `{sel, addr, wdata}` is `reqWord` (R74). -/
theorem selSelectsTransaction : Obligations.SelSelectsTransaction :=
  fun a v => ⟨Machine.decodeReq_rdreg a v, Machine.decodeReq_wrreg a v, decodeReq_rdg_fields a v,
    decodeReq_wrg_fields a v, decodeReq_rdb a v, Machine.decodeReq_wrb a v, decodeReq_rdrsv a v,
    decodeReq_wrrsv a v⟩

/-! ### Encoding what was decoded -/

theorem sel_cases : ∀ sel : BitVec 3, sel = 0b000#3 ∨ sel = 0b001#3 ∨ sel = 0b010#3 ∨ sel = 0b011#3 ∨
    sel = 0b100#3 ∨ sel = 0b101#3 ∨ sel = 0b110#3 ∨ sel = 0b111#3 := by decide

/-- Encoding puts the data word of a write back and drops that of a read: bit 0 of `sel` is `we` (R75; log 11). -/
theorem encode_decodeReq_reqWord (sel : BitVec 3) (a : Addr p) (v : Word p) :
    encode (decodeReq (reqWord sel a v)) p = .hreq (reqWord sel a (if sel.getLsbD 0 then v else 0)) := by
  obtain rfl | rfl | rfl | rfl | rfl | rfl | rfl | rfl := sel_cases sel <;>
    simp [decodeReq, encode, encodeReq, gmAddr_fields]

/-- `we`, bit 0 of `sel`, is bit 46 of a request word of this hardware (R74, R75). -/
theorem reqSel_we (req : Req) : (reqSel req).getLsbD 0 = req.getLsbD 46 := by
  simp only [reqSel, BitVec.getLsbD_extractLsb']
  rfl

/-- Settles O2: take the word apart into its fields, and put them together again. -/
theorem requestWordReencodes : Obligations.RequestWordReencodes := by
  intro req
  have h := encode_decodeReq_reqWord (reqSel req) (reqAddr req) (reqData req)
  rw [reqWord_fields, reqSel_we] at h
  rw [h]
  split
  · rw [reqWord_fields]
  · rfl

/-! ### Addresses -/

/-- Settles O5: `128*r + c` is below `2 ^ 14`, so the address holds it, and division by 128 takes it apart. -/
theorem addressIsRowAndColumn : Obligations.AddressIsRowAndColumn := by
  refine ⟨fun r c hr hc => ?cell, fun k v hk => ?byte⟩
  case cell =>
    have hfits := gmAddr_fits hr hc
    have hval : (gmAddr r c).toNat = 128 * r + c := gmAddr_toNat hfits
    refine ⟨hval, ?row, ?col, fun v => ⟨?read, Machine.decodeReq_wrg hr hc v⟩⟩
    case row =>
      rw [BitVec.extractLsb'_toNat, hval, Nat.shiftRight_eq_div_pow]
      omega
    case col =>
      rw [BitVec.extractLsb'_toNat, hval, Nat.shiftRight_zero]
      omega
    case read => rw [decodeReq_rdg_fields, addrRow_gmAddr hfits hc, addrCol_gmAddr hfits hc]
  case byte =>
    have hval : (BitVec.ofNat Config.params.aw k).toNat = k :=
      addr_ofNat_toNat (lt_trans hk (by decide))
    exact ⟨by rw [decodeReq_rdb, hval], by rw [Machine.decodeReq_wrb, hval]⟩

/-! ### Command words -/

/-- The mask of the CMD rows keeps bit 0 (R76). -/
theorem and_mask_eq_bit_zero (v : Word) : v &&& 0x00000001#32 = if v.getLsbD 0 then 1#32 else 0#32 := by
  rw [BitVec.and_one_eq_setWidth_ofBool_getLsbD]
  cases v.getLsbD 0 <;> rfl

/-- Settles O6: the decoder and command start both look at the bit the mask keeps. -/
theorem commandWordSelects : Obligations.CommandWordSelects := by
  intro v
  rw [and_mask_eq_bit_zero, decodeCmd, Machine.Command.ofWord]
  cases v.getLsbD 0 with
  | false => exact ⟨fun _ => ⟨rfl, rfl⟩, fun h => absurd h (by decide), .inl rfl⟩
  | true => exact ⟨fun h => absurd h (by decide), fun _ => ⟨rfl, rfl⟩, .inr rfl⟩

/-- Settles O7: eleven words, each decoded by evaluation. -/
theorem tableWordsDecode : Obligations.TableWordsDecode := by
  unfold Obligations.TableWordsDecode
  decide

end Sys2Proof
end

section
/-! PROOF. What the registers answer: the status word and its fields (10_state.md R25; 30_encoding.md R77), what a
dimension or length register keeps of a word (30_encoding.md R78), and the response and the draws of each request
and command (30_encoding.md R74; 40_host_access.md R98). -/

namespace Sys2Proof.Machine

variable {p : Config.Params}

/-! ### The status word -/

/-- Each field of `zext_32({ERR[1:0], OP, BUSY})` read back out of the word. -/
theorem statusWord_fields : ∀ (err : BitVec 2) (op : Bit) (busy : Bool),
    ((err ++ op ++ BitVec.ofBool busy : BitVec 4).setWidth 32).extractLsb' 4 28 = 0 ∧
    ((err ++ op ++ BitVec.ofBool busy : BitVec 4).setWidth 32).extractLsb' 2 2 = err ∧
    ((err ++ op ++ BitVec.ofBool busy : BitVec 4).setWidth 32).extractLsb' 1 1 = op ∧
    ((err ++ op ++ BitVec.ofBool busy : BitVec 4).setWidth 32).getLsbD 0 = busy := by decide

/-- Settles O54: `ERR` 0 leaves `OP` and `BUSY` free, code 1 is UNPACK's and code 2 either command's, both while
idle. -/
theorem statusWordValues : Obligations.StatusWordValues := by
  rintro s ⟨-, hload, hbusy, hpack⟩
  refine ⟨?values, statusWord_fields s.err.code s.op.bit s.busy⟩
  rw [State.statusWord]
  cases herr : s.err with
  | none => cases s.op <;> cases s.busy <;> decide
  | insufficientData =>
    have hidle : s.busy = false := by simpa [herr] using hbusy
    have hop : s.op ≠ .pack := by simpa [herr] using hpack
    rw [hidle]
    cases hc : s.op with
    | pack => exact absurd hc hop
    | unpack => decide
  | dimensionMismatch =>
    have hidle : s.busy = false := by simpa [herr] using hbusy
    rw [hidle]
    cases s.op <;> decide
  | imageLoad => exact absurd herr hload

/-! ### The dimension and length registers -/

theorem execWrreg_of_idle {s : State p} (hb : s.busy = false) (n : Nat) (v : Word p) :
    execWrreg n v.toNat s = .next (s.writeRegister n v).noResponse := by
  rw [execWrreg, State.hostWrite_of_idle hb, dataWord_toNat]

theorem execRdreg_width_of_idle {s : State p} (hb : s.busy = false) :
    execRdreg 2 s = .next (s.respond (dimWord s.width)) := by
  rw [execRdreg, State.readRegister_width, State.respondIdle_of_idle hb]

theorem execRdreg_height_of_idle {s : State p} (hb : s.busy = false) :
    execRdreg 3 s = .next (s.respond (dimWord s.height)) := by
  rw [execRdreg, State.readRegister_height, State.respondIdle_of_idle hb]

theorem execRdreg_blen_of_idle {s : State p} (hb : s.busy = false) :
    execRdreg 4 s = .next (s.respond (lenWord s.blen)) := by
  rw [execRdreg, State.readRegister_blen, State.respondIdle_of_idle hb]

theorem wordDim_eq_extractLsb' (v : Word) : wordDim v = v.extractLsb' 0 8 :=
  BitVec.setWidth_eq_extractLsb' (by decide)

theorem wordLen_eq_extractLsb' (v : Word) : wordLen v = v.extractLsb' 0 12 :=
  BitVec.setWidth_eq_extractLsb' (by decide)

/-- Cutting a word to 8 bits and sign-extending it again takes its value to the one in -128 to 127 that is equal to
it modulo 256. -/
theorem dimWord_wordDim_toInt (v : Word) : (dimWord (wordDim v) : Word).toInt = v.toInt.bmod 256 := by
  have hdvd : 2 ^ Config.params.dimw ∣ 2 ^ Config.params.xlen := by decide
  rw [dimWord, BitVec.toInt_signExtend_of_le (by decide), wordDim, BitVec.toInt_setWidth,
    BitVec.toInt_eq_toNat_bmod]
  exact (Int.bmod_bmod_of_dvd hdvd).symm

theorem dimWord_wordDim_eq_iff (v : Word) :
    dimWord (wordDim v) = v ↔ -128 ≤ v.toInt ∧ v.toInt ≤ 127 := by
  rw [← BitVec.toInt_inj, dimWord_wordDim_toInt, Int.bmod_eq_iff (by decide)]
  omega

theorem lenWord_wordLen_toNat (v : Word) : (lenWord (wordLen v) : Word).toNat = v.toNat % 4096 := by
  rw [lenWord, BitVec.toNat_setWidth_of_le (by decide), wordLen, BitVec.toNat_setWidth]
  rfl

theorem lenWord_wordLen_eq_iff (v : Word) : lenWord (wordLen v) = v ↔ v.toNat ≤ 4095 := by
  rw [← BitVec.toNat_inj, lenWord_wordLen_toNat]
  omega

/-- What a dimension register keeps of a word, as a command takes it and as a read answers it. -/
theorem kept_dim (v : Word) :
    (wordDim v).toInt = (v.extractLsb' 0 8).toInt ∧
    some (dimWord (wordDim v)) = some ((v.extractLsb' 0 8).signExtend 32) ∧
    (some (dimWord (wordDim v)) = some v ↔ -128 ≤ v.toInt ∧ v.toInt ≤ 127) := by
  rw [Option.some_inj, Option.some_inj, dimWord_wordDim_eq_iff, wordDim_eq_extractLsb']
  exact ⟨rfl, rfl, Iff.rfl⟩

/-- What BLEN keeps of a word, as a command takes it and as a read answers it. -/
theorem kept_len (v : Word) :
    (wordLen v).toNat = (v.extractLsb' 0 12).toNat ∧
    some (lenWord (wordLen v)) = some ((v.extractLsb' 0 12).setWidth 32) ∧
    (some (lenWord (wordLen v)) = some v ↔ v.toNat ≤ 4095) := by
  rw [Option.some_inj, Option.some_inj, lenWord_wordLen_eq_iff, wordLen_eq_extractLsb']
  exact ⟨rfl, rfl, Iff.rfl⟩

/-- Settles O23: the write leaves the block idle, so the read after it answers what the register has kept. -/
theorem registerKeepsRepresentableValues : Obligations.RegisterKeepsRepresentableValues :=
  fun _ v hb =>
    ⟨⟨_, _, execWrreg_of_idle hb 2 v, execRdreg_width_of_idle hb, kept_dim v⟩,
      ⟨_, _, execWrreg_of_idle hb 3 v, execRdreg_height_of_idle hb, kept_dim v⟩,
      _, _, execWrreg_of_idle hb 4 v, execRdreg_blen_of_idle hb, kept_len v⟩

/-! ### The port -/

/-- While busy a dimension, length, cell or byte read takes the next draw (40_host_access.md R98). -/
theorem execRdreg_of_busy {s : State p} (hb : s.busy = true) {n : Nat} (h2 : 2 ≤ n) (h4 : n ≤ 4) :
    execRdreg n s = .next s.respondAny := by
  obtain rfl | rfl | rfl : n = 2 ∨ n = 3 ∨ n = 4 := by omega
  all_goals exact congrArg _ (State.respondIdle_of_busy hb _)

theorem execRdg_of_busy {s : State p} (hb : s.busy = true) {r c : Nat} (hin : gmInRange r c p = true) :
    execRdg r c s = .next s.respondAny := by
  rw [execRdg, if_pos hin, State.respondIdle_of_busy hb]

theorem execRdb_of_busy {s : State p} (hb : s.busy = true) {k : Nat} (hk : k < p.nbyte) :
    execRdb k s = .next s.respondAny := by
  rw [execRdb, if_pos hk, State.respondIdle_of_busy hb]

theorem State.writeRegister_draws (s : State p) (n : Nat) (v : Word p) :
    (s.writeRegister n v).draws = s.draws := by
  unfold State.writeRegister; split <;> rfl

@[simp] theorem State.hostWrite_rdata (s : State p) (f : State p → State p) : (s.hostWrite f).rdata = none := by
  unfold State.hostWrite; split <;> rfl

/-- A host write draws nothing if its effect draws nothing. -/
theorem State.hostWrite_draws {s : State p} {f : State p → State p} (hf : (f s).draws = s.draws) :
    (s.hostWrite f).draws = s.draws := by
  unfold State.hostWrite; split
  · rfl
  · exact hf

/-- A write has no response, performed or ignored (30_encoding.md R74). -/
theorem exec_hostWrite_port (s : State) {i : Instr} (hi : isHostWrite i = true) :
    ∃ t, exec i s = .next t ∧ t.rdata = none ∧ t.draws = s.draws := by
  cases i with
  | wrreg n v => exact ⟨_, rfl, s.hostWrite_rdata _, State.hostWrite_draws (s.writeRegister_draws n _)⟩
  | wrg r c v =>
    refine ⟨_, rfl, ?_⟩
    split
    · exact ⟨s.hostWrite_rdata _, State.hostWrite_draws rfl⟩
    · exact ⟨rfl, rfl⟩
  | wrb k v =>
    refine ⟨_, rfl, ?_⟩
    split
    · exact ⟨s.hostWrite_rdata _, State.hostWrite_draws rfl⟩
    · exact ⟨rfl, rfl⟩
  | wrrsv a v => exact ⟨_, rfl, rfl, rfl⟩
  | rdreg | rdg | rdb | rdrsv | pack | unpack => cases hi

/-- EXEC, where it is enabled and where it is not, leaves the fields of the port alone (log 8). -/
theorem exec_command_port (s : State) (c : Command) :
    ∃ t, exec (commandInstr c) s = .next t ∧ t.rdata = s.rdata ∧ s.queueKept t := by
  cases c with
  | pack =>
    refine ⟨_, rfl, ?_⟩
    obtain ⟨-, h⟩ | ⟨-, -, h⟩ | ⟨-, -, h⟩ := execPack_cases (s := s) rfl <;>
    · rw [h]
      exact ⟨rfl, rfl, rfl⟩
  | unpack =>
    refine ⟨_, rfl, ?_⟩
    obtain ⟨-, h⟩ | ⟨-, -, h⟩ | ⟨-, -, -, h⟩ | ⟨-, -, -, h⟩ := execUnpack_cases (s := s) rfl <;>
    · rw [h]
      exact ⟨rfl, rfl, rfl⟩

/-- Settles O22: each of the reads named takes a draw while busy. -/
theorem busyReadsTakeFreshDraws : Obligations.BusyReadsTakeFreshDraws := by
  refine fun s => ⟨fun hb i hi => ⟨s.respondAny, ?read, rfl, rfl⟩, fun _ => exec_hostWrite_port s,
    exec_command_port s⟩
  obtain ⟨n, h2, h4, rfl⟩ | ⟨r, c, hr, hc, rfl⟩ | ⟨k, hk, rfl⟩ := hi
  · exact execRdreg_of_busy hb h2 h4
  · exact execRdg_of_busy hb (gmInRange_of_lt hr hc)
  · exact execRdb_of_busy hb hk

end Sys2Proof.Machine
end

section
/-! PROOF. The bits of the last packed byte (30_encoding.md R72; 41_pack.md R111, R114). -/

namespace Sys2Proof.Machine

variable {p : Config.Params}

/-- The number of cells is that of the bytes before the last one, eight each, and those of the last one. -/
theorem ceil8_last {n : Nat} (h : n % 8 ≠ 0) : 8 * (ceil8 n - 1) + n % 8 = n ∧ 0 < ceil8 n := by
  unfold ceil8
  omega

theorem mod_eight_eq_zero_iff (n : Nat) : n % 8 = 0 ↔ 8 * ceil8 n = n := by
  unfold ceil8
  omega

/-- Each bit PACK writes is a bit of the padded flat sequence (41_pack.md R114). -/
theorem byteBit_packResult (s : State p) {k i : Nat} (hk : k < s.packedLen) (hi : i < 8) :
    byteBit ((packResult s).bmRead k) i = packBit s (8 * k + i) := by
  rw [packResult_bmRead, if_pos hk, packByte, byteBit_joinBits _ hi]

theorem packBit_of_lt {s : State p} {n : Nat} (h : n < s.cells) :
    packBit s n = s.gmRead (n / s.cols) (n % s.cols) := if_pos h

theorem packBit_of_le {s : State p} {n : Nat} (h : s.cells ≤ n) : packBit s n = 0 :=
  if_neg (Nat.not_lt.mpr h)

/-- Settles O29: bit `i` of the last byte has the flat index `8*(L-1) + i`, which is below `N` exactly if `i` is
below `N mod 8`. -/
theorem paddingIsWrittenZero : Obligations.PaddingIsWrittenZero := by
  intro s hb hop hd
  refine ⟨packResult s, (execPack_of_enabled hb hop).trans (by rw [if_pos hd]), fun i hn hle hi => ?padding,
    fun i hn hlt => ?cell, mod_eight_eq_zero_iff s.cells⟩
  case padding =>
    obtain ⟨hlast, hpos⟩ := ceil8_last hn
    rw [byteBit_packResult s (Nat.sub_one_lt_of_lt hpos) hi]
    exact packBit_of_le (by rw [State.packedLen]; omega)
  case cell =>
    obtain ⟨hlast, hpos⟩ := ceil8_last hn
    rw [byteBit_packResult s (Nat.sub_one_lt_of_lt hpos) (by omega)]
    exact packBit_of_lt (by rw [State.packedLen]; omega)

end Sys2Proof.Machine
end

section
/-! PROOF. What a command run to the end of its WAIT leaves (30_encoding.md R82; 40_host_access.md R99), and the
round trip of the functions and of the block (43_laws.md R140). -/

namespace Sys2Proof.Machine

variable {p : Config.Params}

/-! ### The grids and bytes of the two functions -/

theorem BinaryGrid.Same.trans {G H K : BinaryGrid} (h : G.Same H) (h' : H.Same K) : G.Same K := by
  obtain ⟨hheight, hwidth, hcell⟩ := h
  obtain ⟨hheight', hwidth', hcell'⟩ := h'
  exact ⟨hheight.trans hheight', hwidth.trans hwidth', fun r c hr hc =>
    (hcell r c hr hc).trans (hcell' r c (hheight ▸ hr) (hwidth ▸ hc))⟩

/-- `pack` sees a grid's shape and the cells within it, and no other (00_scope.md R12). -/
theorem pack_eq_of_same {G H : BinaryGrid} (h : G.Same H) : pack G = pack H := by
  obtain ⟨hheight, hwidth, hcell⟩ := h
  have hflat : flatten G = flatten H := by
    rw [flatten, flatten, ← hheight, ← hwidth]
    refine List.map_congr_left fun n hn => ?_
    have hlt : n < G.width * G.height := Nat.mul_comm _ _ ▸ List.mem_range.mp hn
    exact hcell _ _ (Nat.div_lt_of_lt_mul hlt) (Nat.mod_lt _ (Nat.pos_of_lt_mul_right hlt))
  rw [pack, pack, hflat, hheight, hwidth]

theorem pack_length (G : BinaryGrid) : (pack G).length = ceil8 (G.height * G.width) := by simp [pack]

/-- The round trip of the functions (43_laws.md R140): cell `(r, c)` goes to bit `n mod 8` of byte `n div 8` with
`n = r*w + c`, and comes back from there. -/
theorem unpack_pack_same (G : BinaryGrid) : (unpack (pack G) G.width G.height).Same G := by
  refine ⟨rfl, rfl, fun r c (hr : r < G.height) (hc : c < G.width) => ?_⟩
  have hn : r * G.width + c < G.height * G.width := flat_lt hr hc
  have hk : (r * G.width + c) / 8 < ceil8 (G.height * G.width) := by
    unfold ceil8
    omega
  rw [unpack_cell _ hr hc (by rw [pack_length, Nat.mul_comm]), pack_getD G hk,
    byteBit_joinBits _ (Nat.mod_lt _ (by decide)), Nat.div_add_mod, if_pos hn, flat_div hc, flat_mod hc]

/-! ### What depends on the block alone -/

section
variable {s t : State p} (h : t.toBlock = s.toBlock)
include h

theorem gridOf_of_toBlock : gridOf t = gridOf s := by
  have hcell : t.gmRead = s.gmRead :=
    funext₂ (State.gmRead_congr (congrArg Block.gm h) (congrArg Block.epoch h))
  rw [gridOf, gridOf, hcell, State.rows_congr (congrArg Block.height h),
    State.cols_congr (congrArg Block.width h)]

theorem len_of_toBlock : t.len = s.len := by
  rw [State.len, State.len, h]

theorem bytesOf_of_toBlock : bytesOf t = bytesOf s := by
  have hbyte : t.bmRead = s.bmRead :=
    funext (State.bmRead_congr (congrArg Block.bm h) (congrArg Block.epoch h))
  rw [bytesOf, bytesOf, hbyte, len_of_toBlock h]

theorem dimsOk_of_toBlock : t.dimsOk = s.dimsOk := by
  rw [State.dimsOk, State.dimsOk, State.w, State.w, State.h, State.h, h]

theorem packedLen_of_toBlock : t.packedLen = s.packedLen := by
  rw [State.packedLen, State.packedLen, State.cells, State.cells, State.cols_congr (congrArg Block.width h),
    State.rows_congr (congrArg Block.height h)]

theorem packResult_of_toBlock : (packResult t).toBlock = (packResult s).toBlock := by
  obtain ⟨block, _, _, _⟩ := s
  obtain ⟨_, _, _, _⟩ := t
  obtain rfl : _ = block := h
  rfl

theorem unpackResult_of_toBlock : (unpackResult t).toBlock = (unpackResult s).toBlock := by
  obtain ⟨block, _, _, _⟩ := s
  obtain ⟨_, _, _, _⟩ := t
  obtain rfl : _ = block := h
  rfl

end

/-! ### Runs of script lines -/

/-- A run over a list of script lines, as one induction: what each line keeps, the list of the lines done with it,
holds after all of them. -/
theorem State.runsTo_lines {ι : Type} {line : ι → Event} {Inv : List ι → State → Prop} {l : List ι}
    (hline : ∀ i ∈ l, ∀ done s rest, Inv done s → s.inputs = line i :: rest →
      ∃ t, step s = .next t ∧ t.inputs = rest ∧ Inv (i :: done) t)
    {done : List ι} {s : State} {rest : List Event} (h : Inv done s) (hin : s.inputs = l.map line ++ rest) :
    ∃ t, s.runsTo l.length t ∧ t.inputs = rest ∧ Inv (l.reverse ++ done) t := by
  induction l generalizing done s with
  | nil => exact ⟨s, (State.runsTo_zero s s).mpr rfl, hin, h⟩
  | cons i l ih =>
    rw [List.forall_mem_cons] at hline
    obtain ⟨u, hstep, hin', h'⟩ := hline.1 done s _ h hin
    obtain ⟨t, hrun, hrest, hinv⟩ := ih hline.2 h' hin'
    exact ⟨t, (State.runsTo_succ s t _).mpr ⟨u, hstep, hrun⟩, hrest, by simpa using hinv⟩

/-- Polls of STATUS leave the block as it is. -/
theorem State.runsTo_polls {s : State} {n : Nat} {rest : List Event}
    (hin : s.inputs = List.replicate n (Script.rdreg 1) ++ rest) :
    ∃ t, s.runsTo n t ∧ t.inputs = rest ∧ t.toBlock = s.toBlock := by
  have h := State.runsTo_lines (line := fun _ : Unit => Script.rdreg 1) (Inv := fun _ t => t.toBlock = s.toBlock)
    (l := List.replicate n ()) (done := []) (rest := rest) (s := s)
    (fun _ _ _ u rest hu hin => ⟨_, step_rdreg_status hin, rfl, hu⟩) rfl (by rw [hin, List.map_replicate])
  rwa [List.length_replicate] at h

/-- WAIT with a command pending ends with the block as EXEC leaves it, and with its status read
(40_host_access.md R99). -/
theorem State.runsTo_wait {s : State} {n : Nat} {rest : List Event} (hb : s.busy = true)
    (hin : s.inputs = Script.wait n ++ rest) :
    ∃ u v t, u.toBlock = s.toBlock ∧ exec (commandInstr s.op) u = .next v ∧
      s.runsTo (n + 2) t ∧ t.toBlock = v.toBlock ∧ t.inputs = rest ∧ t.rdata = some v.statusWord := by
  obtain ⟨polled, hpolls, hin, hblock⟩ :=
    State.runsTo_polls (s := s) (n := n) (rest := .exec :: Script.rdreg 1 :: rest)
      (by rw [hin, Script.wait, List.append_assoc]; rfl)
  have hb' : polled.busy = true := (congrArg Block.busy hblock).trans hb
  have hop : polled.op = s.op := congrArg Block.op hblock
  have hexec := ((stepRunsPendingCommand polled).1 hb').2 _ hin
  rw [hop] at hexec
  obtain ⟨v, hv, -, hqueue, -⟩ := exec_command_port { polled with inputs := Script.rdreg 1 :: rest } s.op
  refine ⟨{ polled with inputs := Script.rdreg 1 :: rest }, v,
    { v with inputs := rest, rdata := some v.statusWord }, hblock, hv, State.runsTo_add hpolls ?_, rfl, rfl, rfl⟩
  exact (State.runsTo_succ ..).mpr ⟨v, hexec.trans hv, (State.runsTo_one ..).mpr (step_rdreg_status hqueue)⟩

/-- A command from its start to the end of its WAIT. -/
theorem State.runsTo_start_wait {s : State} {c : Command} {n : Nat} {rest : List Event} (hb : s.busy = false)
    (hin : s.inputs = Script.start c :: (Script.wait n ++ rest)) :
    ∃ u v t, u.toBlock = (s.started c).toBlock ∧ exec (commandInstr c) u = .next v ∧
      s.runsTo (n + 3) t ∧ t.toBlock = v.toBlock ∧ t.inputs = rest ∧ t.rdata = some v.statusWord := by
  obtain ⟨u, v, t, hu, hv, hrun, hend⟩ :=
    State.runsTo_wait (s := { s.started c with inputs := Script.wait n ++ rest }) rfl rfl
  exact ⟨u, v, t, hu, hv, (State.runsTo_succ ..).mpr ⟨_, step_start hb hin, hrun⟩, hend⟩

/-- `PACK; WAIT` with positive dimensions ends with status 0 and the block of a successful PACK. -/
theorem State.runsTo_pack_wait {s : State} {n : Nat} {rest : List Event} (hb : s.busy = false)
    (hd : s.dimsOk = true) (hin : s.inputs = Script.pack :: (Script.wait n ++ rest)) :
    ∃ t, s.runsTo (n + 3) t ∧ t.toBlock = (packResult (s.started .pack)).toBlock ∧ t.inputs = rest ∧
      t.rdata = some 0x0 := by
  obtain ⟨u, v, t, hu, hv, hrun, hblock, hrest, hdata⟩ := State.runsTo_start_wait (c := .pack) hb hin
  have hbusy : u.busy = true := congrArg Block.busy hu
  have hop : u.op = .pack := congrArg Block.op hu
  have hdims : u.dimsOk = true := (dimsOk_of_toBlock hu).trans hd
  obtain rfl : packResult u = v := by
    simpa [commandInstr, exec, execPack_of_enabled hbusy hop, hdims] using hv
  have hstatus : (packResult u).statusWord = 0x0 := by
    rw [State.statusWord, packResult_err, packResult_op, packResult_busy, hop]
    decide
  exact ⟨t, hrun, hblock.trans (packResult_of_toBlock hu), hrest, hstatus ▸ hdata⟩

/-- `UNPACK; WAIT` with positive dimensions and enough bytes ends with status 2 and the block of a successful
UNPACK. -/
theorem State.runsTo_unpack_wait {s : State} {n : Nat} {rest : List Event} (hb : s.busy = false)
    (hd : s.dimsOk = true) (hl : s.packedLen ≤ s.len)
    (hin : s.inputs = Script.unpack :: (Script.wait n ++ rest)) :
    ∃ t, s.runsTo (n + 3) t ∧ t.toBlock = (unpackResult (s.started .unpack)).toBlock ∧ t.inputs = rest ∧
      t.rdata = some 0x2 := by
  obtain ⟨u, v, t, hu, hv, hrun, hblock, hrest, hdata⟩ := State.runsTo_start_wait (c := .unpack) hb hin
  have hbusy : u.busy = true := congrArg Block.busy hu
  have hop : u.op = .unpack := congrArg Block.op hu
  have hdims : u.dimsOk = true := (dimsOk_of_toBlock hu).trans hd
  have hlen : ¬ u.len < u.packedLen := by
    rw [len_of_toBlock hu, packedLen_of_toBlock hu]
    exact Nat.not_lt.mpr hl
  obtain rfl : unpackResult u = v := by
    simpa [commandInstr, exec, execUnpack_of_enabled hbusy hop, hdims, hlen] using hv
  have hstatus : (unpackResult u).statusWord = 0x2 := by
    rw [State.statusWord, unpackResult_err, unpackResult_op, unpackResult_busy, hop]
    decide
  exact ⟨t, hrun, hblock.trans (unpackResult_of_toBlock hu), hrest, hstatus ▸ hdata⟩

/-- After PACK, BM holds the packed grid. -/
theorem bytesOf_after_pack {s t : State} (ht : t.toBlock = (packResult (s.started .pack)).toBlock) :
    bytesOf t = pack (gridOf s) :=
  (bytesOf_of_toBlock ht).trans (bytesOf_packResult params_valid (s.started .pack))

/-- After UNPACK, the corner of GM holds the unpacked bytes. -/
theorem gridOf_after_unpack {s t : State} (hl : s.packedLen ≤ s.len)
    (ht : t.toBlock = (unpackResult (s.started .unpack)).toBlock) :
    (gridOf t).Same (unpack (bytesOf s) s.cols s.rows) := by
  rw [gridOf_of_toBlock ht]
  exact gridOf_unpackResult_same (s := s.started .unpack) hl

/-! ### The round trip -/

/-- Settles O49: PACK leaves the bytes of `pack` and the grid, UNPACK turns the bytes into the grid again. -/
theorem roundTrip : Obligations.RoundTrip := by
  refine ⟨fun G _ _ => unpack_pack_same G, fun s n m rest hb hd hin => ?_⟩
  obtain ⟨u, hpack, hu, hmid, -⟩ := State.runsTo_pack_wait (n := n)
    (rest := Script.unpack :: (Script.wait m ++ rest)) hb hd (by simpa using hin)
  have hwidth : u.width = s.width := by rw [hu]; rfl
  have hheight : u.height = s.height := by rw [hu]; rfl
  have hcols : u.cols = s.cols := State.cols_congr hwidth
  have hrows : u.rows = s.rows := State.rows_congr hheight
  have hblen : u.len = s.packedLen :=
    (congrArg (fun b => b.blen.toNat) hu).trans (s.packedLen_toNat params_valid)
  have hl : u.packedLen ≤ u.len := by
    rw [hblen, State.packedLen, State.packedLen, State.cells, State.cells, hcols, hrows]
  obtain ⟨t, hunpack, ht, hrest, hdata⟩ := State.runsTo_unpack_wait (n := m) (rest := rest)
    (congrArg Block.busy hu) ((dimsOk_of_toBlock hu).trans hd) hl hmid
  have hrun := State.runsTo_add hpack hunpack
  rw [show n + 3 + (m + 3) = n + m + 6 by omega] at hrun
  refine ⟨t, hrun, congrArg Block.err ht, congrArg Block.op ht, congrArg Block.busy ht, hdata, hrest,
    (congrArg Block.width ht).trans hwidth, (congrArg Block.height ht).trans hheight,
    (congrArg (fun b => b.blen.toNat) ht).trans hblen, ?_⟩
  have hunpacked := gridOf_after_unpack hl ht
  rw [bytesOf_after_pack hu, hcols, hrows] at hunpacked
  exact hunpacked.trans (unpack_pack_same (gridOf s))

end Sys2Proof.Machine
end

section
/-! PROOF. The two host programs: a loaded grid is packed, loaded bytes are unpacked (30_encoding.md R82;
70_reset_and_hazards.md R183, R184). -/

namespace Sys2Proof.Machine

variable {p : Config.Params}

/-! ### The words of a script -/

/-- A dimension up to 127 is kept by WIDTH and HEIGHT (30_encoding.md R78). -/
theorem wordDim_ofNat_toInt {n : Nat} (hn : n ≤ 127) :
    (wordDim (p := Config.params) (BitVec.ofNat 32 n)).toInt = n := by
  have hval : (wordDim (p := Config.params) (BitVec.ofNat 32 n)).toNat = n := by
    rw [wordDim, BitVec.toNat_setWidth, BitVec.toNat_ofNat, Nat.mod_mod_of_dvd _ (by decide)]
    exact Nat.mod_eq_of_lt (by simp; omega)
  rw [BitVec.toInt_eq_toNat_of_lt (by rw [hval]; simp; omega), hval]

/-- A length up to 4095 is kept by BLEN (30_encoding.md R78). -/
theorem wordLen_ofNat_toNat {n : Nat} (hn : n ≤ 4095) :
    (wordLen (p := Config.params) (BitVec.ofNat 32 n)).toNat = n := by
  rw [wordLen, BitVec.toNat_setWidth, BitVec.toNat_ofNat, Nat.mod_mod_of_dvd _ (by decide)]
  exact Nat.mod_eq_of_lt (by simp; omega)

/-- A cell sent as a data word arrives as it is (40_host_access.md R94). -/
theorem wordCell_setWidth (b : Bit) : wordCell (p := Config.params) (b.setWidth 32) = b := by
  rw [wordCell, BitVec.setWidth_setWidth_of_le _ (by decide), BitVec.setWidth_eq]

/-- A byte sent as a data word arrives as it is (40_host_access.md R96). -/
theorem wordByte_setWidth (b : Byte) : wordByte (p := Config.params) (b.setWidth 32) = b := by
  rw [wordByte, BitVec.setWidth_setWidth_of_le _ (by decide), BitVec.setWidth_eq]

/-! ### The shape a script declares -/

theorem State.dimsOk_of_pos {s : State p} (hc : 0 < s.cols) (hr : 0 < s.rows) : s.dimsOk = true :=
  s.dimsOk_iff.mpr ⟨Int.lt_toNat.mp hc, Int.lt_toNat.mp hr⟩

theorem step_wrreg_width {s : State} {v : Word} {rest : List Event} (hb : s.busy = false)
    (hin : s.inputs = Script.wrreg 2 v :: rest) :
    step s = .next { s with inputs := rest, rdata := none, width := wordDim v } := step_wrreg hb hin

theorem step_wrreg_height {s : State} {v : Word} {rest : List Event} (hb : s.busy = false)
    (hin : s.inputs = Script.wrreg 3 v :: rest) :
    step s = .next { s with inputs := rest, rdata := none, height := wordDim v } := step_wrreg hb hin

theorem step_wrreg_blen {s : State} {v : Word} {rest : List Event} (hb : s.busy = false)
    (hin : s.inputs = Script.wrreg 4 v :: rest) :
    step s = .next { s with inputs := rest, rdata := none, blen := wordLen v } := step_wrreg hb hin

/-- An idle state that declares the shape of `h` rows and `w` columns and holds the bytes of `s`. -/
structure State.Declares (s : State) (h w : Nat) (t : State) : Prop where
  idle : t.busy = false
  rows : t.rows = h
  cols : t.cols = w
  bytes : bytesOf t = bytesOf s

theorem State.Declares.intro {s t : State} {h w : Nat} (hh : h ≤ 127) (hw : w ≤ 127) (hb : t.busy = false)
    (hheight : t.height = wordDim (BitVec.ofNat 32 h)) (hwidth : t.width = wordDim (BitVec.ofNat 32 w))
    (hbytes : bytesOf t = bytesOf s) : s.Declares h w t where
  idle := hb
  rows := by rw [State.rows, State.h, hheight, wordDim_ofNat_toInt hh, Int.toNat_natCast]
  cols := by rw [State.cols, State.w, hwidth, wordDim_ofNat_toInt hw, Int.toNat_natCast]
  bytes := hbytes

theorem State.Declares.dimsOk {s t : State} {h w : Nat} (ht : s.Declares h w t) (hh : 1 ≤ h) (hw : 1 ≤ w) :
    t.dimsOk = true :=
  State.dimsOk_of_pos (ht.cols.symm ▸ hw) (ht.rows.symm ▸ hh)

/-- HEIGHT and then WIDTH, the order of LDGRID (30_encoding.md R82). -/
theorem State.runsTo_height_width {s : State} {h w : Nat} {rest : List Event} (hh : h ≤ 127) (hw : w ≤ 127)
    (hb : s.busy = false)
    (hin : s.inputs = Script.wrreg 3 (BitVec.ofNat 32 h) :: Script.wrreg 2 (BitVec.ofNat 32 w) :: rest) :
    ∃ t, s.runsTo 2 t ∧ t.inputs = rest ∧ s.Declares h w t := by
  have hfirst := step_wrreg_height hb hin
  exact ⟨_, (State.runsTo_succ ..).mpr ⟨_, hfirst, (State.runsTo_one ..).mpr (step_wrreg_width hb rfl)⟩, rfl,
    .intro hh hw hb rfl rfl rfl⟩

/-- WIDTH and then HEIGHT, the order of the host program for UNPACK (70_reset_and_hazards.md R184). -/
theorem State.runsTo_width_height {s : State} {h w : Nat} {rest : List Event} (hh : h ≤ 127) (hw : w ≤ 127)
    (hb : s.busy = false)
    (hin : s.inputs = Script.wrreg 2 (BitVec.ofNat 32 w) :: Script.wrreg 3 (BitVec.ofNat 32 h) :: rest) :
    ∃ t, s.runsTo 2 t ∧ t.inputs = rest ∧ s.Declares h w t := by
  have hfirst := step_wrreg_width hb hin
  exact ⟨_, (State.runsTo_succ ..).mpr ⟨_, hfirst, (State.runsTo_one ..).mpr (step_wrreg_height hb rfl)⟩, rfl,
    .intro hh hw hb rfl rfl rfl⟩

/-! ### LDGRID -/

/-- Some cells of a grid are written to a block that is still idle and of the same shape. -/
structure State.HoldsCells (s : State) (rows : Nat → Nat → Bit) (done : List (Nat × Nat)) (t : State) :
    Prop where
  idle : t.busy = false
  width : t.width = s.width
  height : t.height = s.height
  cells : ∀ e ∈ done, e.2 < 128 ∧ t.gmRead e.1 e.2 = rows e.1 e.2

/-- One line of LDGRID writes its cell and keeps those written before. -/
theorem State.HoldsCells.step_wrg {s t : State} {rows : Nat → Nat → Bit} {done : List (Nat × Nat)}
    (ht : s.HoldsCells rows done t) {e : Nat × Nat} (hr : e.1 < 128) (hc : e.2 < 128) {rest : List Event}
    (hin : t.inputs = Script.wrg e.1 e.2 ((rows e.1 e.2).setWidth 32) :: rest) :
    ∃ u, step t = .next u ∧ u.inputs = rest ∧ s.HoldsCells rows (e :: done) u := by
  refine ⟨_, Machine.step_wrg ht.idle hr hc hin, rfl, ht.idle, ht.width, ht.height, ?_⟩
  rw [wordCell_setWidth]
  have hread (r c : Nat) := State.gmRead_gmWrite { t with inputs := rest } e.1 e.2 (rows e.1 e.2) r c
  refine List.forall_mem_cons.mpr ⟨⟨hc, (hread _ _).trans (if_pos rfl)⟩, fun e' he' => ?_⟩
  obtain ⟨hc', hcell⟩ := ht.cells e' he'
  refine ⟨hc', (hread _ _).trans ?_⟩
  split
  · next hkey =>
    obtain ⟨hrow, hcol⟩ := gmKey_inj hc' hc hkey
    rw [hrow, hcol]
  · exact hcell

/-- Lines that write cells in range write all of them. -/
theorem State.runsTo_cells {s : State} {rows : Nat → Nat → Bit} {l : List (Nat × Nat)} {rest : List Event}
    (hb : s.busy = false) (hl : ∀ e ∈ l, e.1 < 128 ∧ e.2 < 128)
    (hin : s.inputs = l.map (fun e => Script.wrg e.1 e.2 ((rows e.1 e.2).setWidth 32)) ++ rest) :
    ∃ t, s.runsTo l.length t ∧ t.inputs = rest ∧ s.HoldsCells rows l.reverse t := by
  have hrun := State.runsTo_lines (Inv := s.HoldsCells rows) (done := [])
    (fun e he _ _ _ ht => ht.step_wrg (hl e he).1 (hl e he).2) ⟨hb, rfl, rfl, nofun⟩ hin
  rwa [List.append_nil] at hrun

/-- The lines of LDGRID after the two registers, cell by cell. -/
theorem ldgrid_eq (h w : Nat) (rows : Nat → Nat → Bit) :
    Script.ldgrid (p := Config.params) h w rows =
      Script.wrreg 3 (BitVec.ofNat 32 h) :: Script.wrreg 2 (BitVec.ofNat 32 w) ::
        (List.range h ×ˢ List.range w).map fun e => Script.wrg e.1 e.2 ((rows e.1 e.2).setWidth 32) := by
  simp [Script.ldgrid, SProd.sprod, List.product, List.map_flatMap, Function.comp_def]

theorem mem_range_product {h w : Nat} {e : Nat × Nat} :
    e ∈ List.range h ×ˢ List.range w ↔ e.1 < h ∧ e.2 < w := by
  rw [List.mem_product, List.mem_range, List.mem_range]

/-- LDGRID declares the shape and leaves the grid in the corner of GM. -/
theorem State.runsTo_ldgrid {s : State} {h w : Nat} {rows : Nat → Nat → Bit} {rest : List Event}
    (hb : s.busy = false) (hh : h ≤ 127) (hw : w ≤ 127) (hin : s.inputs = Script.ldgrid h w rows ++ rest) :
    ∃ t, s.runsTo (2 + h * w) t ∧ t.inputs = rest ∧ t.busy = false ∧ (gridOf t).Same ⟨h, w, rows⟩ := by
  rw [ldgrid_eq] at hin
  obtain ⟨u, hshape, hmid, hu⟩ := State.runsTo_height_width hh hw hb hin
  obtain ⟨t, hload, hrest, ht⟩ := State.runsTo_cells (l := List.range h ×ˢ List.range w) hu.idle
    (fun e he => by have := mem_range_product.mp he; omega) hmid
  rw [List.length_product, List.length_range, List.length_range] at hload
  have hrows : t.rows = h := (State.rows_congr ht.height).trans hu.rows
  have hcols : t.cols = w := (State.cols_congr ht.width).trans hu.cols
  refine ⟨t, State.runsTo_add hshape hload, hrest, ht.idle, hrows, hcols, fun r c hr hc => ?_⟩
  have hdone : (r, c) ∈ List.range h ×ˢ List.range w := mem_range_product.mpr ⟨hrows ▸ hr, hcols ▸ hc⟩
  exact (ht.cells (r, c) (List.mem_reverse.mpr hdone)).2

/-- Settles O50: LDGRID leaves the grid in GM, and PACK its bytes in BM. -/
theorem loadedGridIsPacked : Obligations.LoadedGridIsPacked := by
  intro s h w n rows rest hb hh hh' hw hw' hin
  obtain ⟨u, hload, hmid, hidle, hgrid⟩ := State.runsTo_ldgrid (rest := Script.pack :: (Script.wait n ++ rest))
    hb hh' hw' (by simpa using hin)
  have hrows : u.rows = h := hgrid.1
  have hcols : u.cols = w := hgrid.2.1
  have hd : u.dimsOk = true := State.dimsOk_of_pos (by omega) (by omega)
  obtain ⟨t, hpack, ht, hrest, hdata⟩ := State.runsTo_pack_wait hidle hd hmid
  exact ⟨t, State.runsTo_add hload hpack, hdata, hrest, (bytesOf_after_pack ht).trans (pack_eq_of_same hgrid)⟩

/-! ### LDBYTES -/

/-- Some bytes of a sequence are written, and the block is idle. -/
structure State.HoldsBytes (bytes : List Byte) (done : List Nat) (t : State) : Prop where
  idle : t.busy = false
  bytes : ∀ k ∈ done, t.bmRead k = bytes.getD k 0

/-- One line of LDBYTES writes its byte and keeps those written before. -/
theorem State.HoldsBytes.step_wrb {t : State} {bytes : List Byte} {done : List Nat}
    (ht : t.HoldsBytes bytes done) {k : Nat} (hk : k < 4096) {rest : List Event}
    (hin : t.inputs = Script.wrb (BitVec.ofNat Config.params.aw k) ((bytes.getD k 0).setWidth 32) :: rest) :
    ∃ u, step t = .next u ∧ u.inputs = rest ∧ u.HoldsBytes bytes (k :: done) := by
  have haddr : (BitVec.ofNat Config.params.aw k).toNat = k := addr_ofNat_toNat (lt_trans hk (by decide))
  refine ⟨_, Machine.step_wrb ht.idle (haddr.symm ▸ hk) hin, rfl, ht.idle, ?_⟩
  rw [wordByte_setWidth, haddr]
  have hread (k' : Nat) := State.bmRead_bmWrite { t with inputs := rest } k (bytes.getD k 0) k'
  refine List.forall_mem_cons.mpr ⟨(hread _).trans (if_pos rfl), fun k' hk' => (hread _).trans ?_⟩
  split
  · next heq => rw [heq]
  · exact ht.bytes k' hk'

theorem bytesOf_eq {s : State p} {bytes : List Byte} (hlen : s.len = bytes.length)
    (hbyte : ∀ k, k < bytes.length → s.bmRead k = bytes.getD k 0) : bytesOf s = bytes := by
  apply List.ext_getElem
  · rw [bytesOf_length, hlen]
  · intro k _ hk
    calc (bytesOf s)[k]
        = s.bmRead k := by simp [bytesOf]
      _ = bytes.getD k 0 := hbyte k hk
      _ = bytes[k] := List.getD_eq_getElem _ _ hk

/-- LDBYTES leaves the bytes in BM and their number in BLEN. -/
theorem State.runsTo_ldbytes {s : State} {bytes : List Byte} {rest : List Event} (hb : s.busy = false)
    (hl : bytes.length ≤ 4095) (hin : s.inputs = Script.ldbytes bytes ++ rest) :
    ∃ t, s.runsTo (bytes.length + 1) t ∧ t.inputs = rest ∧ t.busy = false ∧ bytesOf t = bytes := by
  rw [Script.ldbytes, List.append_assoc] at hin
  obtain ⟨u, hload, hmid, hu⟩ := State.runsTo_lines (Inv := State.HoldsBytes bytes) (done := [])
    (fun k hk _ _ _ ht => ht.step_wrb (by have := List.mem_range.mp hk; omega)) ⟨hb, nofun⟩ hin
  rw [List.length_range] at hload
  refine ⟨_, State.runsTo_add hload ((State.runsTo_one ..).mpr (step_wrreg_blen hu.idle hmid)), rfl, hu.idle,
    bytesOf_eq (wordLen_ofNat_toNat hl) fun k hk => ?_⟩
  exact hu.bytes k (by simpa using hk)

/-- Settles O51: LDBYTES leaves the bytes in BM, the two register writes declare the shape, and UNPACK leaves the
grid in GM. -/
theorem loadedBytesAreUnpacked : Obligations.LoadedBytesAreUnpacked := by
  intro s B h w n rest hb hh hh' hw hw' hB hB' hin
  obtain ⟨u, hload, hmid, hidle, hbytes⟩ := State.runsTo_ldbytes
    (rest := Script.wrreg 2 (BitVec.ofNat 32 w) :: Script.wrreg 3 (BitVec.ofNat 32 h) :: Script.unpack ::
      (Script.wait n ++ rest)) hb hB' (by simpa using hin)
  obtain ⟨v, hshape, hmid', hv⟩ := State.runsTo_width_height hh' hw' hidle hmid
  have hbytes' : bytesOf v = B := hv.bytes.trans hbytes
  have hl : v.packedLen ≤ v.len := by
    rwa [← bytesOf_length, hbytes', State.packedLen, State.cells, hv.cols, hv.rows]
  obtain ⟨t, hunpack, ht, hrest, hdata⟩ := State.runsTo_unpack_wait hv.idle (hv.dimsOk hh hw) hl hmid'
  have hrun := State.runsTo_add hload (State.runsTo_add hshape hunpack)
  rw [show B.length + 1 + (2 + (n + 3)) = B.length + 3 + (n + 3) by omega] at hrun
  refine ⟨t, hrun, hdata, hrest, ?_⟩
  have hunpacked := gridOf_after_unpack hl ht
  rwa [hbytes', hv.cols, hv.rows] at hunpacked

end Sys2Proof.Machine
end

section
/-! PROOF. The host requests (40_host_access.md R90 to R98): what a read answers, what a write stores and what it
leaves unchanged, and what both do while a command is pending. -/

namespace Sys2Proof.Machine

variable {p : Config.Params}

/-! ### Reads -/

/-- A read that is defined only while idle writes nothing of the block, and answers in either case. -/
theorem reads_of_respondIdle {s : State p} {v : Word p} {o : Host.Outcome (State p) Fault Refusal}
    (h : o = .next (s.respondIdle v)) :
    ∃ t, o = .next t ∧ s.blockKept t ∧ t.inputs = s.inputs ∧
      (s.busy = false → t.rdata = some v) ∧ (s.busy = true → ∃ u, t.rdata = some u) := by
  refine ⟨_, h, State.blockKept_of_toBlock (s.respondIdle_toBlock v), s.respondIdle_inputs v, fun hb => ?_,
    fun hb => ?_⟩
  · rw [State.respondIdle_of_idle hb, State.respond_rdata]
  · exact ⟨_, by rw [State.respondIdle_of_busy hb, State.respondAny_rdata]⟩

theorem execRdg_inRange {r c : Nat} (hin : gmInRange r c p = true) (s : State p) :
    execRdg r c s = .next (s.respondIdle (cellWord (s.gmRead r c))) := by
  rw [execRdg, if_pos hin]

theorem execRdb_inRange {k : Nat} (hk : k < p.nbyte) (s : State p) :
    execRdb k s = .next (s.respondIdle (byteWord (s.bmRead k))) := by
  rw [execRdb, if_pos hk]

/-- A register read answers in every state. -/
theorem State.readRegister_answers (s : State p) (n : Nat) : ∃ v, (s.readRegister n).rdata = some v := by
  have hidle (v : Word p) : ∃ u, (s.respondIdle v).rdata = some u := by
    cases hb : s.busy with
    | true => exact ⟨_, congrArg State.rdata (State.respondIdle_of_busy hb v)⟩
    | false => exact ⟨_, congrArg State.rdata (State.respondIdle_of_idle hb v)⟩
  unfold State.readRegister
  split
  case h_3 | h_4 | h_5 => exact hidle _
  all_goals exact ⟨_, rfl⟩

/-- Settles O13: the table of R90, row by row. -/
theorem rdregReadsRegister : Obligations.RdregReadsRegister := by
  intro n s
  refine ⟨s.readRegister n, rfl, State.blockKept_of_toBlock (s.readRegister_toBlock n),
    s.readRegister_inputs n, ?cmd, ?status, fun hn => ?reserved, fun hb => ⟨?width, ?height, ?blen⟩,
    fun _ => s.readRegister_answers n⟩
  case cmd | status =>
    rintro rfl
    rfl
  case reserved => rw [s.readRegister_reserved hn, State.respond_rdata]
  case width | height | blen =>
    rintro rfl
    exact congrArg State.rdata (State.respondIdle_of_idle hb _)

/-- Settles O16. -/
theorem rdgReadsCell : Obligations.RdgReadsCell :=
  fun _ _ s hr hc => reads_of_respondIdle (execRdg_inRange (gmInRange_of_lt hr hc) s)

/-- Settles O18: out of range is decided before BUSY. -/
theorem rdbReadsByte : Obligations.RdbReadsByte := by
  intro k s
  by_cases hk : k < 4096
  · obtain ⟨t, ht, hblock, hinputs, hidle, hbusy⟩ := reads_of_respondIdle (execRdb_inRange hk s)
    exact ⟨t, ht, hblock, hinputs, fun hge => absurd hk (Nat.not_lt.mpr hge), fun _ => hidle, fun _ => hbusy⟩
  · obtain ⟨t, ht, hdata, hblock, hinputs, -⟩ :=
      inert_of_respond (execRdb_outOfRange (p := Config.params) (Nat.le_of_not_lt hk) s)
    exact ⟨t, ht, hblock, hinputs, fun _ => hdata, fun hlt => absurd hlt hk, fun hlt => absurd hlt hk⟩

/-! ### Writes -/

/-- While busy every host write is ignored (40_host_access.md R98). -/
theorem exec_hostWrite_of_busy {s : State} (hb : s.busy = true) {i : Instr} (hi : isHostWrite i = true) :
    exec i s = .next s.noResponse := by
  cases i with
  | wrreg n v => rw [exec, execWrreg, State.hostWrite_of_busy hb]
  | wrg r c v => rw [exec, execWrg, State.hostWrite_of_busy hb, ite_self]
  | wrb k v => rw [exec, execWrb, State.hostWrite_of_busy hb, ite_self]
  | wrrsv a v => rfl
  | rdreg | rdg | rdb | rdrsv | pack | unpack => cases hi

theorem State.noResponse_blockKept (s : State p) : s.blockKept s.noResponse := State.blockKept_of_toBlock rfl

theorem State.noResponse_queueKept (s : State p) : s.queueKept s.noResponse := ⟨rfl, rfl⟩

/-- A register write touches neither memory. -/
theorem State.writeRegister_gmRead (s : State p) (n : Nat) (v : Word p) (r c : Nat) :
    (s.writeRegister n v).gmRead r c = s.gmRead r c :=
  State.gmRead_congr (s.writeRegister_gm n v) (s.writeRegister_epoch n v) r c

theorem State.writeRegister_bmRead (s : State p) (n : Nat) (v : Word p) (k : Nat) :
    (s.writeRegister n v).bmRead k = s.bmRead k :=
  State.bmRead_congr (s.writeRegister_bm n v) (s.writeRegister_epoch n v) k

theorem State.writeRegister_queueKept (s : State p) (n : Nat) (v : Word p) :
    s.queueKept (s.writeRegister n v) :=
  ⟨s.writeRegister_inputs n v, s.writeRegister_draws n v⟩

/-- WRREG to any register, CMD included: ignored while busy, and performed without touching a memory while idle. -/
theorem exec_wrreg_frame (n : Nat) (v : Word) (s : State) :
    ∃ t, exec (.wrreg n v.toNat) s = .next t ∧ s.queueKept t ∧ (s.busy = true → s.blockKept t) ∧
      (s.busy = false → t.toBlock = (s.writeRegister n v).toBlock) ∧
      (∀ r c, t.gmRead r c = s.gmRead r c) ∧ ∀ k, t.bmRead k = s.bmRead k := by
  cases hb : s.busy with
  | true =>
    exact ⟨_, exec_hostWrite_of_busy hb rfl, s.noResponse_queueKept, fun _ => s.noResponse_blockKept, nofun,
      s.gmRead_noResponse, s.bmRead_noResponse⟩
  | false =>
    exact ⟨_, execWrreg_of_idle hb n v, s.writeRegister_queueKept n v, nofun, fun _ => rfl,
      s.writeRegister_gmRead n v, s.writeRegister_bmRead n v⟩

/-- Settles O14: the table of R91, row by row. -/
theorem wrregWritesRegister : Obligations.WrregWritesRegister := by
  intro n v s _
  obtain ⟨t, ht, hqueue, hbusy, hidle, hreads⟩ := exec_wrreg_frame n v s
  refine ⟨t, ht, hqueue, hbusy, fun hb => ?_, hreads⟩
  have hblock := hidle hb
  refine ⟨?status, ?width, ?height, ?blen, fun hn => ?reserved⟩
  case status =>
    rintro rfl
    exact State.blockKept_of_toBlock hblock
  case width | height =>
    rintro rfl
    rw [hblock, ← wordDim_eq_extractLsb']
    rfl
  case blen =>
    rintro rfl
    rw [hblock, ← wordLen_eq_extractLsb']
    rfl
  case reserved =>
    rw [s.writeRegister_reserved hn] at hblock
    exact State.blockKept_of_toBlock hblock

/-- Bit 0 of the word selects the command (30_encoding.md R76). -/
theorem Command.ofWord_eq_ite (v : Word p) : Command.ofWord v = if v.getLsbD 0 then .unpack else .pack := by
  unfold Command.ofWord
  cases v.getLsbD 0 <;> rfl

/-- A pending command shows as 0x1 (PACK) or 0x3 (UNPACK) in STATUS (30_encoding.md R77). -/
theorem State.statusWord_of_started {s : State} {b : Bool} (hb : s.busy = true)
    (hop : s.op = if b then .unpack else .pack) (herr : s.err = .none) :
    s.statusWord = if b then 0x3 else 0x1 := by
  rw [State.statusWord, hb, hop, herr]
  cases b <;> decide

/-- Settles O15: what is written while idle is `startCommand`, whose status is that of a pending command. -/
theorem commandStartWritesStatus : Obligations.CommandStartWritesStatus := by
  intro v s
  obtain ⟨t, ht, hqueue, hbusy, hidle, hreads⟩ := exec_wrreg_frame 0 v s
  refine ⟨t, ht, hqueue, hbusy, fun hb => ?_, hreads⟩
  have hblock : t.toBlock = { s.toBlock with
      op := if v.getLsbD 0 then .unpack else .pack, err := .none, busy := true } := by
    rw [hidle hb, ← Command.ofWord_eq_ite]
    rfl
  exact ⟨hblock, State.statusWord_of_started (congrArg Block.busy hblock) (congrArg Block.op hblock)
    (congrArg Block.err hblock)⟩

/-- A write of one cell leaves every other cell of GM as it was. -/
theorem State.gmRead_gmWrite_of_ne (s : State p) {r c r' c' : Nat} (b : Bit) (hc : c < p.gdim)
    (hc' : c' < p.gdim) (hne : ¬(r' = r ∧ c' = c)) : (s.gmWrite r c b).gmRead r' c' = s.gmRead r' c' := by
  rw [State.gmRead_gmWrite, if_neg fun hkey => hne (gmKey_inj hc' hc hkey)]

/-- A write of one byte leaves every other byte as it was. -/
theorem State.bmRead_bmWrite_of_ne (s : State p) {k k' : Nat} (v : Byte) (hne : k' ≠ k) :
    (s.bmWrite k v).bmRead k' = s.bmRead k' := by
  rw [State.bmRead_bmWrite, if_neg hne]

/-- Settles O17: different cells have different keys, so one entry of GM is written. -/
theorem wrgWritesCell : Obligations.WrgWritesCell := by
  intro r c v s hr hc
  cases hb : s.busy with
  | true =>
    exact ⟨_, exec_hostWrite_of_busy hb rfl, s.noResponse_queueKept, fun _ => s.noResponse_blockKept, nofun,
      s.bmRead_noResponse⟩
  | false =>
    refine ⟨_, execWrg_of_idle hb (gmInRange_of_lt hr hc) _, ⟨rfl, rfl⟩, nofun,
      fun _ => ⟨?written, fun r' c' _ hc' hne => s.gmRead_gmWrite_of_ne _ hc hc' hne, rfl⟩,
      State.bmRead_congr rfl rfl⟩
    rw [State.gmRead_noResponse, State.gmRead_gmWrite, if_pos rfl, dataWord_toNat,
      wordCell_eq_extractLsb' (by decide)]

/-- Settles O19: one entry of BM is written, where there is such a byte. -/
theorem wrbWritesByte : Obligations.WrbWritesByte := by
  intro k v s
  by_cases hignored : 4096 ≤ k ∨ s.busy = true
  · have hexec : exec (.wrb k v.toNat) s = .next s.noResponse :=
      hignored.elim (execWrb_outOfRange (p := Config.params) · _ s) (exec_hostWrite_of_busy · rfl)
    exact ⟨_, hexec, s.noResponse_queueKept, fun _ => s.noResponse_blockKept,
      fun hk hb => absurd hignored (by simp [hk, hb]), s.gmRead_noResponse⟩
  · obtain ⟨hk, hb⟩ : k < 4096 ∧ s.busy = false := by simpa using hignored
    refine ⟨_, execWrb_of_idle hb hk _, ⟨rfl, rfl⟩, fun h => absurd h hignored,
      fun _ _ => ⟨?written, fun k' hne => s.bmRead_bmWrite_of_ne _ hne, rfl⟩, State.gmRead_congr rfl rfl⟩
    rw [State.bmRead_noResponse, State.bmRead_bmWrite, if_pos rfl, dataWord_toNat,
      wordByte_eq_extractLsb' (by decide)]

/-! ### While a command is pending -/

/-- A read that is answered in every state writes nothing of the block. -/
theorem reads_of_respond {s : State p} {v : Word p} {o : Host.Outcome (State p) Fault Refusal}
    (h : o = .next (s.respond v)) : ∃ t, o = .next t ∧ s.blockKept t ∧ t.rdata = some v :=
  ⟨_, h, State.blockKept_of_toBlock rfl, rfl⟩

theorem State.statusWord_of_busy {s : State} (hb : s.busy = true) :
    s.statusWord = (s.err.code ++ s.op.bit ++ 1#1 : BitVec 4).setWidth 32 := by
  rw [State.statusWord, hb]
  rfl

/-- Settles O21: writes are ignored, STATUS and the places that hold no state answer as ever, and every other read
is gated. -/
theorem busyGatesRequests : Obligations.BusyGatesRequests := by
  intro s hb
  refine ⟨fun i hi => ⟨_, exec_hostWrite_of_busy hb hi, s.noResponse_blockKept⟩, ?status, reads_of_respond rfl,
    fun n hn => reads_of_respond (execRdreg_reserved hn s), fun a => reads_of_respond rfl,
    fun k hk => reads_of_respond (execRdb_outOfRange (p := Config.params) hk s),
    fun i hi => ⟨s.respondAny, _, ?gated, State.blockKept_of_toBlock rfl, rfl⟩⟩
  case status =>
    rw [← State.statusWord_of_busy hb]
    exact reads_of_respond rfl
  case gated =>
    obtain ⟨n, h2, h4, rfl⟩ | ⟨r, c, hr, hc, rfl⟩ | ⟨k, hk, rfl⟩ := hi
    · exact execRdreg_of_busy hb h2 h4
    · exact execRdg_of_busy hb (gmInRange_of_lt hr hc)
    · exact execRdb_of_busy hb hk

end Sys2Proof.Machine
end

section
/-! PROOF. WAIT: the status each poll answers (40_host_access.md R99; 70_reset_and_hazards.md R190). -/

namespace Sys2Proof.Machine

variable {p : Config.Params}

theorem statusWord_of_toBlock {s t : State p} (h : t.toBlock = s.toBlock) : t.statusWord = s.statusWord :=
  State.statusWord_congr (congrArg Block.err h) (congrArg Block.op h) (congrArg Block.busy h)

/-- Bit 0 of STATUS is BUSY (10_state.md R25). -/
theorem State.statusWord_bit_zero (s : State) : s.statusWord.getLsbD 0 = s.busy := by
  obtain ⟨-, -, -, hbusy⟩ := statusWord_fields s.err.code s.op.bit s.busy
  exact hbusy

theorem ErrorCode.code_eq_zero_iff (e : ErrorCode) : e.code = 0 ↔ e = .none := by
  cases e <;> decide

/-- Bits 3 to 2 of STATUS are 0 exactly if no error is reported (10_state.md R25; 30_encoding.md R81). -/
theorem State.statusWord_err_eq_zero_iff (s : State) : s.statusWord.extractLsb' 2 2 = 0 ↔ s.err = .none := by
  obtain ⟨-, herr, -, -⟩ := statusWord_fields s.err.code s.op.bit s.busy
  rw [← s.err.code_eq_zero_iff, ← herr]
  rfl

/-- The last of one or more polls in a row answers the status. -/
theorem State.runsTo_polls_answer {s : State} {n : Nat} {rest : List Event}
    (hin : s.inputs = List.replicate (n + 1) (Script.rdreg 1) ++ rest) :
    ∃ t, s.runsTo (n + 1) t ∧ t.toBlock = s.toBlock ∧ t.rdata = some s.statusWord := by
  obtain ⟨u, hpolls, hmid, hblock⟩ := State.runsTo_polls (s := s) (n := n) (rest := Script.rdreg 1 :: rest)
    (by rw [hin, List.replicate_succ', List.append_assoc]; rfl)
  exact ⟨_, State.runsTo_add hpolls ((State.runsTo_one ..).mpr (step_rdreg_status hmid)), hblock,
    congrArg some (statusWord_of_toBlock hblock)⟩

/-- WAIT begins with each number of polls that is not above its own. -/
theorem wait_eq_polls_append {j n : Nat} (h : j ≤ n) :
    Script.wait n = List.replicate j (Script.rdreg 1) ++ Script.wait (p := p) (n - j) := by
  rw [Script.wait, Script.wait, ← List.append_assoc, List.replicate_append_replicate, Nat.add_sub_cancel' h]

/-- EXEC of the pending command leaves the block idle. -/
theorem exec_command_idle {s t : State} (hb : s.busy = true) (h : exec (commandInstr s.op) s = .next t) :
    t.busy = false := by
  obtain ⟨_, -, rfl⟩ | ⟨-, -, rfl⟩ | ⟨-, -, -, rfl⟩ := exec_command_cases hb h
  · rfl
  · rfl
  · rfl

/-- Settles O48: the polls leave the pending command as it is, EXEC leaves the block idle, and the poll after it
reads the status EXEC has left. -/
theorem waitEndsWithFinalStatus : Obligations.WaitEndsWithFinalStatus := by
  refine ⟨fun s polls rest hb hin => ⟨fun j hj hle => ?pending, ?final⟩, fun s rest hb hin => ?idle⟩
  case pending =>
    obtain ⟨n, rfl⟩ := Nat.exists_eq_add_of_le' hj
    rw [wait_eq_polls_append hle, List.append_assoc] at hin
    obtain ⟨u, hrun, hblock, hdata⟩ := State.runsTo_polls_answer hin
    exact ⟨u, hrun, hblock, hdata, s.statusWord_bit_zero.trans hb⟩
  case final =>
    obtain ⟨u, v, t, hu, hv, hrun, hblock, hrest, hdata⟩ := State.runsTo_wait hb hin
    have hop : u.op = s.op := congrArg Block.op hu
    have hidle : t.busy = false := (congrArg Block.busy hblock).trans
      (exec_command_idle ((congrArg Block.busy hu).trans hb) (hop.symm ▸ hv))
    rw [← statusWord_of_toBlock hblock] at hdata
    exact ⟨t, hrun, hidle, hrest, hdata, t.statusWord_bit_zero.trans hidle, t.statusWord_err_eq_zero_iff⟩
  case idle =>
    exact ⟨_, step_rdreg_status hin, rfl, rfl, s.statusWord_bit_zero.trans hb⟩

end Sys2Proof.Machine
end

section
/-! PROOF. The EXEC step of PACK, its two outcomes and what each leaves unchanged (41_pack.md R114, R115, R118). -/

namespace Sys2Proof.Machine

variable {p : Config.Params}

/-! ### The two outcomes -/

theorem exec_pack_of_not_dimsOk {s : State} (hb : s.busy = true) (hop : s.op = .pack) (hd : s.dimsOk = false) :
    exec .pack s = .next (s.fail .dimensionMismatch) :=
  (execPack_of_enabled hb hop).trans (by simp [hd])

theorem exec_pack_of_dimsOk {s : State} (hb : s.busy = true) (hop : s.op = .pack) (hd : s.dimsOk = true) :
    exec .pack s = .next (packResult s) :=
  (execPack_of_enabled hb hop).trans (by rw [if_pos hd])

/-! ### What they leave unchanged -/

/-- PACK writes no byte from `L` on (41_pack.md R118). -/
theorem packResult_bmRead_of_le {s : State p} {k : Nat} (hk : s.packedLen ≤ k) :
    (packResult s).bmRead k = s.bmRead k :=
  (packResult_bmRead s k).trans (if_neg (Nat.not_lt.mpr hk))

/-- Settles O26: with a dimension that is not positive the step is a failure, which writes ERR and BUSY alone. -/
theorem packRefusesBadDimensions : Obligations.PackRefusesBadDimensions := by
  intro s hb hop hnonpos
  have hd : s.dimsOk = false := s.dimsOk_eq_false.mpr hnonpos
  exact ⟨_, exec_pack_of_not_dimsOk hb hop hd, rfl, rfl, rfl, rfl, rfl, rfl, State.bmRead_congr rfl rfl,
    State.gmRead_congr rfl rfl⟩

/-- Settles O27: the bytes written are those below `L`, and `L` is `ceil8(w*h)`. -/
theorem packLeavesTheRestUnchanged : Obligations.PackLeavesTheRestUnchanged := by
  intro s hb hop hw hh
  have hd : s.dimsOk = true := s.dimsOk_iff.mpr ⟨hw, hh⟩
  rw [State.packedLen_eq hd]
  exact ⟨_, exec_pack_of_dimsOk hb hop hd, rfl, rfl, rfl, rfl, State.gmRead_congr rfl rfl,
    fun k hk => packResult_bmRead_of_le hk⟩

/-! ### The whole step -/

/-- Settles O25: a failure without two positive dimensions, else the bytes of the padded flat sequence, whose
numbers of cells and bytes are within the bounds of the dimensions. -/
theorem packWritesPackedBytes : Obligations.PackWritesPackedBytes := by
  intro s hb hop
  cases hd : s.dimsOk with
  | false =>
    refine ⟨_, exec_pack_of_not_dimsOk hb hop hd, fun _ => rfl, fun hw hh => ?_⟩
    have hpos : s.dimsOk = true := s.dimsOk_iff.mpr ⟨hw, hh⟩
    exact absurd hpos (by simp [hd])
  | true =>
    refine ⟨_, exec_pack_of_dimsOk hb hop hd, fun hnonpos => ?refused, fun _ _ w h N L hw hh hN hL => ?packed⟩
    case refused =>
      have hneg : s.dimsOk = false := s.dimsOk_eq_false.mpr hnonpos
      exact absurd hneg (by simp [hd])
    case packed =>
      obtain rfl : w = s.cols := congrArg Int.toNat hw
      obtain rfl : h = s.rows := congrArg Int.toNat hh
      obtain rfl : N = s.cells := hN
      obtain rfl : L = s.packedLen := hL
      exact ⟨fun k i hk hi => byteBit_packResult s hk hi, s.packedLen_toNat params_valid, rfl, rfl, hop,
        State.cells_pos hd, s.cells_le, ceil8_pos (State.cells_pos hd), s.packedLen_le, rfl,
        fun k hk => packResult_bmRead_of_le hk⟩

end Sys2Proof.Machine
end

section
/-! PROOF. `pack` as a function of the flat sequence alone (41_pack.md R112, R113), and the bit-serial loop that
computes it (R116). -/

namespace Sys2Proof.Machine

/-! ### The bytes of a flat sequence -/

/-- Byte `k` of a flat sequence, the bits past its end 0 (41_pack.md R111, R112). -/
def flatByte (f : List Bit) (k : Nat) : Byte := joinBits fun i => f.getD (8 * k + i) 0

/-- `pack` of a grid is made of its flat sequence and nothing else (41_pack.md R112). -/
theorem pack_eq_flatByte (G : BinaryGrid) :
    pack G = (List.range (ceil8 (flatten G).length)).map (flatByte (flatten G)) := by
  rw [pack, flatten_length]
  exact List.map_congr_left fun k _ => joinBits_congr fun i _ => pad_getD _ _

/-- Settles O37: the bytes depend on the flat sequence alone. -/
theorem packForgetsShape : Obligations.PackForgetsShape := by
  refine ⟨pack_length, fun G H hflat => ?_⟩
  rw [pack_eq_flatByte, pack_eq_flatByte, hflat]

/-- A byte that lies whole within a sequence does not see what follows it. -/
theorem flatByte_append_of_lt {f g : List Bit} {k : Nat} (hk : k < f.length / 8) :
    flatByte (f ++ g) k = flatByte f k :=
  joinBits_congr fun i hi => List.getD_append _ _ _ _ (by omega)

/-- A byte that begins at or past the end of a sequence is 0. -/
theorem flatByte_of_le {f : List Bit} {k : Nat} (hk : f.length ≤ 8 * k) : flatByte f k = 0 :=
  (joinBits_congr fun i _ => List.getD_eq_default _ _ (by omega)).trans (show joinBits (fun _ => 0) = 0 by decide)

/-! ### The flat sequence row by row -/

/-- Counting to `h*w` is counting through `h` rows of `w` columns. -/
theorem range_mul_map {α : Type} (h w : Nat) (f : Nat → Nat → α) :
    (List.range (h * w)).map (fun n => f (n / w) (n % w)) =
      (List.range h).flatMap fun r => (List.range w).map (f r) := by
  induction h with
  | zero => simp
  | succ h ih =>
    have hrow : ((List.range w).map (h * w + ·)).map (fun n => f (n / w) (n % w)) = (List.range w).map (f h) := by
      rw [List.map_map]
      refine List.map_congr_left fun c hc => ?_
      have hlt : c < w := List.mem_range.mp hc
      simp only [Function.comp_apply, flat_div hlt, flat_mod hlt]
    rw [Nat.succ_mul, List.range_add, List.map_append, ih, hrow, List.range_succ, List.flatMap_append,
      List.flatMap_singleton]

/-- The flat sequence is the rows one after the other, each from left to right (41_pack.md R110). -/
theorem flatten_eq_flatMap (G : BinaryGrid) :
    flatten G = (List.range G.height).flatMap fun r => (List.range G.width).map (G.cell r) :=
  range_mul_map G.height G.width G.cell

/-! ### The loop -/

/-- The variables of the packing loop once it has met the bits `f` (41_pack.md R116): the full bytes are emitted,
and `acc` holds the bits met since, above them zeros. -/
def packLoopAfter (f : List Bit) : PackLoop where
  acc := flatByte f (f.length / 8)
  i := f.length % 8
  out := (List.range (f.length / 8)).map (flatByte f)

/-- `acc[i] = b` sets lane `i` and keeps the others. -/
theorem assignBit_getLsbD (acc : Byte) (i : Nat) (b : Bit) {j : Nat} (hj : j < 8) :
    (assignBit acc i b).getLsbD j = if j = i then b.getLsbD 0 else acc.getLsbD j := by
  rw [assignBit, BitVec.getLsbD_or, BitVec.getLsbD_and]
  obtain hlt | rfl | hgt := Nat.lt_trichotomy j i
  · simp [hj, hlt, hlt.ne]
  · simp [hj]
  · have habove : b.getLsbD (j - i) = false := BitVec.getLsbD_of_ge b _ (by omega)
    simp [hj, hgt.ne', habove, Nat.sub_ne_zero_of_lt hgt]

theorem assignBit_joinBits (a : Nat → Bit) (b : Bit) (i : Nat) :
    assignBit (joinBits a) i b = joinBits fun j => if j = i then b else a j := by
  apply BitVec.eq_of_getLsbD_eq
  intro j hj
  rw [assignBit_getLsbD _ _ _ hj, joinBits_getLsbD _ hj, joinBits_getLsbD _ hj]
  split <;> rfl

/-- The accumulator with the next bit assigned is the byte the next bit belongs to. -/
theorem assignBit_flatByte (f : List Bit) (b : Bit) :
    assignBit (flatByte f (f.length / 8)) (f.length % 8) b = flatByte (f ++ [b]) (f.length / 8) := by
  rw [flatByte, assignBit_joinBits]
  refine joinBits_congr fun j hj => ?_
  obtain hlt | rfl | hgt := Nat.lt_trichotomy j (f.length % 8)
  · rw [if_neg hlt.ne, List.getD_append _ _ _ _ (by omega)]
  · rw [if_pos rfl, Nat.div_add_mod, List.getD_append_right _ _ _ _ le_rfl, Nat.sub_self]
    rfl
  · rw [if_neg hgt.ne', List.getD_eq_default _ _ (by omega), List.getD_eq_default _ _ (by simp; omega)]

/-- One iteration takes the variables after `f` to those after `f` and the next bit. -/
theorem packCell_packLoopAfter (f : List Bit) (b : Bit) :
    packCell (packLoopAfter f) b = packLoopAfter (f ++ [b]) := by
  have hlen : (f ++ [b]).length = f.length + 1 := List.length_append
  have hout : (List.range (f.length / 8)).map (flatByte f) =
      (List.range (f.length / 8)).map (flatByte (f ++ [b])) :=
    List.map_congr_left fun k hk => (flatByte_append_of_lt (List.mem_range.mp hk)).symm
  simp only [packCell, packLoopAfter, assignBit_flatByte, hlen, hout]
  split
  · next hfull =>
    have hdiv : (f.length + 1) / 8 = f.length / 8 + 1 := by omega
    have hmod : (f.length + 1) % 8 = 0 := by omega
    have hnext : flatByte (f ++ [b]) (f.length / 8 + 1) = 0 := flatByte_of_le (by omega)
    rw [hdiv, hmod, hnext, List.range_succ, List.map_append]
    rfl
  · next hpart =>
    have hdiv : (f.length + 1) / 8 = f.length / 8 := by omega
    have hmod : (f.length + 1) % 8 = f.length % 8 + 1 := by omega
    rw [hdiv, hmod]

/-- The loop over a sequence of bits. -/
theorem foldl_packCell (f : List Bit) :
    f.foldl packCell { acc := 0, i := 0, out := [] } = packLoopAfter f := by
  induction f using List.reverseRecOn with
  | nil => decide
  | append_singleton f b ih => rw [List.foldl_append, ih, List.foldl_cons, List.foldl_nil, packCell_packLoopAfter]

/-- The loop over rows and columns meets the cells in the order of the flat sequence. -/
theorem foldl_packCell_grid (G : BinaryGrid) :
    (List.range G.height).foldl (fun l r => (List.range G.width).foldl (fun l c => packCell l (G.cell r c)) l)
      { acc := 0, i := 0, out := [] } = packLoopAfter (flatten G) := by
  rw [← foldl_packCell, flatten_eq_flatMap, List.foldl_flatMap]
  simp only [List.foldl_map]

/-- The loop's bytes with its last partial one, if there is one, are all the bytes of the sequence. -/
theorem packLoopAfter_finish (f : List Bit) :
    (if (packLoopAfter f).i = 0 then (packLoopAfter f).out else (packLoopAfter f).out ++ [(packLoopAfter f).acc]) =
      (List.range (ceil8 f.length)).map (flatByte f) := by
  by_cases h : (packLoopAfter f).i = 0
  · have hwhole : f.length % 8 = 0 := h
    have hceil : ceil8 f.length = f.length / 8 := by unfold ceil8; omega
    rw [if_pos h, hceil]
    rfl
  · have hpart : f.length % 8 ≠ 0 := h
    have hceil : ceil8 f.length = f.length / 8 + 1 := by unfold ceil8; omega
    rw [if_neg h, hceil, List.range_succ, List.map_append]
    rfl

theorem packSerial_eq_pack (G : BinaryGrid) : packSerial G = pack G := by
  simp only [packSerial, foldl_packCell_grid, packLoopAfter_finish, pack_eq_flatByte]

/-- Settles O30: after every bit the loop holds the bytes and the bits of the sequence met so far. -/
theorem serialPackAgrees : Obligations.SerialPackAgrees := fun G =>
  ⟨packSerial_eq_pack G, (congrArg List.length (packSerial_eq_pack G)).trans (pack_length G)⟩

end Sys2Proof.Machine
end

section
/-! PROOF. Each bit of `pack` is one bit of the flat sequence, so that the bits move independently of one another
(41_pack.md R112; 43_laws.md R145). -/

namespace Sys2Proof.Machine

/-- Bit `i` of byte `k` is the bit of flat index `8k + i` (41_pack.md R112). -/
theorem byteBit_pack_getD (G : BinaryGrid) {k i : Nat} (hk : k < ceil8 (G.height * G.width)) (hi : i < 8) :
    byteBit ((pack G).getD k 0) i =
      if 8 * k + i < G.height * G.width then G.cell ((8 * k + i) / G.width) ((8 * k + i) % G.width) else 0 := by
  rw [pack_getD G hk, byteBit_joinBits _ hi]

/-- Joining bits commutes with the exclusive or, lane by lane. -/
theorem joinBits_xor (a b : Nat → Bit) : (joinBits fun i => a i ^^^ b i) = joinBits a ^^^ joinBits b := by
  apply BitVec.eq_of_getLsbD_eq
  intro i hi
  rw [BitVec.getLsbD_xor, joinBits_getLsbD _ hi, joinBits_getLsbD _ hi, joinBits_getLsbD _ hi, BitVec.getLsbD_xor]

theorem flatByte_xor (h w : Nat) (f g : Nat → Nat → Bit) (k : Nat) :
    flatByte (flatten ⟨h, w, fun r c => f r c ^^^ g r c⟩) k =
      flatByte (flatten ⟨h, w, f⟩) k ^^^ flatByte (flatten ⟨h, w, g⟩) k := by
  rw [flatByte, flatByte, flatByte, ← joinBits_xor]
  refine joinBits_congr fun i _ => ?_
  simp only [flatten_getD]
  split
  · rfl
  · exact (BitVec.xor_self (x := (0 : Bit))).symm

theorem pack_xor (h w : Nat) (f g : Nat → Nat → Bit) :
    pack ⟨h, w, fun r c => f r c ^^^ g r c⟩ = List.zipWith (· ^^^ ·) (pack ⟨h, w, f⟩) (pack ⟨h, w, g⟩) := by
  simp only [pack_eq_flatByte, flatten_length, List.zipWith_map, List.zipWith_self]
  exact List.map_congr_left fun k _ => flatByte_xor h w f g k

/-- A bit differs from its complement. -/
theorem bit_not_ne (b : Bit) : ~~~b ≠ b := by
  revert b; decide

/-- Settles O42: cell `(r0, c0)` is read at the flat index `r0*w + c0` and at no other. -/
theorem packMovesBitsIndependently : Obligations.PackMovesBitsIndependently := by
  refine ⟨pack_xor, fun h w f r0 c0 hr hc k i hk hi => ?_⟩
  rw [byteBit_pack_getD _ hk hi, byteBit_pack_getD _ hk hi]
  by_cases hn : 8 * k + i = r0 * w + c0
  · rw [hn, if_pos (flat_lt hr hc), if_pos (flat_lt hr hc)]
    simp only [flat_div hc, flat_mod hc, and_self, if_true, ne_eq, not_true_eq_false, iff_false]
    exact bit_not_ne _
  · have hother : ¬((8 * k + i) / w = r0 ∧ (8 * k + i) % w = c0) := by
      rintro ⟨rfl, rfl⟩
      exact hn (Nat.div_add_mod' _ _).symm
    simp only [hother, if_false, true_iff]
    exact hn

end Sys2Proof.Machine
end

section
/-! PROOF. The EXEC step of UNPACK: its three outcomes, the order of its checks, what it leaves unchanged, and the
bits it does not read (42_unpack.md R128 to R131, R134). -/

namespace Sys2Proof.Machine

variable {p : Config.Params}

/-! ### The three outcomes -/

section
variable {s : State} (hb : s.busy = true) (hop : s.op = .unpack)
include hb hop

theorem exec_unpack_of_not_dimsOk (hd : s.dimsOk = false) :
    exec .unpack s = .next (s.fail .dimensionMismatch) :=
  (execUnpack_of_enabled hb hop).trans (by simp [hd])

theorem exec_unpack_of_short (hd : s.dimsOk = true) (hl : s.len < s.packedLen) :
    exec .unpack s = .next (s.fail .insufficientData) :=
  (execUnpack_of_enabled hb hop).trans (by rw [if_pos hd, if_pos hl])

theorem exec_unpack_of_enough (hd : s.dimsOk = true) (hl : s.packedLen ≤ s.len) :
    exec .unpack s = .next (unpackResult s) :=
  (execUnpack_of_enabled hb hop).trans (by rw [if_pos hd, if_neg (Nat.not_lt.mpr hl)])

end

/-- The cell of flat index `n` is bit `n mod 8` of byte `n div 8` (42_unpack.md R129). -/
theorem unpackResult_gmRead_flat {s : State p} {n : Nat} (hn : n < s.cells) :
    (unpackResult s).gmRead (n / s.cols) (n % s.cols) = byteBit (s.bmRead (n / 8)) (n % 8) := by
  obtain ⟨hr, hc⟩ := State.corner_of_lt hn
  rw [unpackResult_gmRead_corner s hr hc, Nat.div_add_mod', unpackBit]

/-- Settles O31: a failure without two positive dimensions or without `L` bytes, else the bits of the bytes in the
corner. -/
theorem unpackWritesCorner : Obligations.UnpackWritesCorner := by
  intro s hb hop
  cases hd : s.dimsOk with
  | false =>
    refine ⟨_, exec_unpack_of_not_dimsOk hb hop hd, fun _ => rfl, fun hw hh => ?_⟩
    have hpos : s.dimsOk = true := s.dimsOk_iff.mpr ⟨hw, hh⟩
    exact absurd hpos (by simp [hd])
  | true =>
    have hnot : ¬(s.width.toInt ≤ 0 ∨ s.height.toInt ≤ 0) := fun hnonpos =>
      absurd (s.dimsOk_eq_false.mpr hnonpos) (by simp [hd])
    obtain hl | hl := Nat.lt_or_ge s.len s.packedLen
    · refine ⟨_, exec_unpack_of_short hb hop hd hl, fun hnonpos => absurd hnonpos hnot,
        fun _ _ w h hw hh => ⟨fun _ => rfl, fun henough => ?_⟩⟩
      obtain rfl : w = s.cols := congrArg Int.toNat hw
      obtain rfl : h = s.rows := congrArg Int.toNat hh
      exact absurd hl (Nat.not_lt.mpr henough)
    · refine ⟨_, exec_unpack_of_enough hb hop hd hl, fun hnonpos => absurd hnonpos hnot,
        fun _ _ w h hw hh => ?_⟩
      obtain rfl : w = s.cols := congrArg Int.toNat hw
      obtain rfl : h = s.rows := congrArg Int.toNat hh
      exact ⟨fun hshort => absurd hshort (Nat.not_lt.mpr hl), fun _ =>
        ⟨fun n hn => unpackResult_gmRead_flat hn, rfl, rfl, hop, rfl,
          fun r c _ hc houtside => unpackResult_gmRead_outside s hc houtside⟩⟩

/-! ### The order of the checks -/

/-- Settles O32: BLEN is no part of the dimensions, and it is looked at only when they are positive. -/
theorem unpackChecksDimensionsFirst : Obligations.UnpackChecksDimensionsFirst := by
  intro s hb hop
  refine ⟨fun hnonpos len => ?refused, fun hw hh len => ?compared⟩
  case refused =>
    have hd : ({ s with blen := len } : State).dimsOk = false := s.dimsOk_eq_false.mpr hnonpos
    exact ⟨_, exec_unpack_of_not_dimsOk hb hop hd, rfl⟩
  case compared =>
    have hd : ({ s with blen := len } : State).dimsOk = true := s.dimsOk_iff.mpr ⟨hw, hh⟩
    have hlen : ceil8 (s.width.toInt * s.height.toInt).toNat = ({ s with blen := len } : State).packedLen :=
      State.packedLen_eq hd
    rw [hlen]
    obtain hl | hl := Nat.lt_or_ge len.toNat ({ s with blen := len } : State).packedLen
    · exact ⟨_, exec_unpack_of_short hb hop hd hl, iff_of_true rfl hl,
        iff_of_false (by simp) (Nat.not_le.mpr hl)⟩
    · exact ⟨_, exec_unpack_of_enough hb hop hd hl, iff_of_false (by simp) (Nat.not_lt.mpr hl),
        iff_of_true rfl hl⟩

/-! ### What it leaves unchanged, and what it does not read -/

/-- Settles O33: a successful UNPACK writes ERR, BUSY and cells of the corner. -/
theorem unpackLeavesTheRestUnchanged : Obligations.UnpackLeavesTheRestUnchanged := by
  intro s hb hop hw hh hlen
  have hd : s.dimsOk = true := s.dimsOk_iff.mpr ⟨hw, hh⟩
  have hl : s.packedLen ≤ s.len := State.packedLen_eq hd ▸ hlen
  refine ⟨_, exec_unpack_of_enough hb hop hd hl, rfl, rfl, rfl, rfl, rfl, State.bmRead_congr rfl rfl,
    fun r c _ hc houtside => unpackResult_gmRead_outside s hc ?_⟩
  simp only [State.rows, State.cols, State.h, State.w]
  omega

/-- The corner after a successful UNPACK is made of the shape and of the bits below `N`, and of nothing else
(42_unpack.md R130, R131). -/
theorem gridOf_unpackResult_same_of_bits {s s' : State p} (hw : s'.width = s.width) (hh : s'.height = s.height)
    (hbits : ∀ n, n < s.cells → unpackBit s' n = unpackBit s n) :
    (gridOf (unpackResult s')).Same (gridOf (unpackResult s)) := by
  have hcols : s'.cols = s.cols := State.cols_congr hw
  have hrows : s'.rows = s.rows := State.rows_congr hh
  refine ⟨hrows, hcols, fun r c (hr : r < s'.rows) (hc : c < s'.cols) => ?_⟩
  have hr' : r < s.rows := hrows ▸ hr
  have hc' : c < s.cols := hcols ▸ hc
  calc (unpackResult s').gmRead r c
      = unpackBit s' (r * s.cols + c) := by rw [unpackResult_gmRead_corner s' hr hc, hcols]
    _ = unpackBit s (r * s.cols + c) := hbits _ (State.flat_lt hr' hc')
    _ = (unpackResult s).gmRead r c := (unpackResult_gmRead_corner s hr' hc').symm

/-- Settles O36: both states have the shape and the length, and the cells take the bits on which they agree. -/
theorem unpackIgnoresPaddingAndExtraBytes : Obligations.UnpackIgnoresPaddingAndExtraBytes := by
  intro s s' hb hb' hop hop' hd hw hh hl hl' hbits
  have hd' : s'.dimsOk = true := by
    rw [State.dimsOk, State.w, State.h, hw, hh]
    exact hd
  have hlen : s'.packedLen = s.packedLen := by
    rw [State.packedLen, State.cells, State.cols_congr hw, State.rows_congr hh]
    rfl
  exact ⟨_, _, exec_unpack_of_enough hb hop hd hl, exec_unpack_of_enough hb' hop' hd' (hlen ▸ hl'), rfl, rfl,
    gridOf_unpackResult_same_of_bits hw hh hbits⟩

end Sys2Proof.Machine
end

section
/-! PROOF. `unpack` bit by bit: the bit-serial loop that computes it (42_unpack.md R133), and what it makes of bytes
with the other bit order (70_reset_and_hazards.md R186). -/

namespace Sys2Proof.Machine

/-! ### The loop -/

/-- The write of the cell of flat index `n` (42_unpack.md R125). -/
def serialWrite (B : Nat → Byte) (w n : Nat) : Nat × Nat × Bit := (n / w, n % w, byteBit (B (n / 8)) (n % 8))

/-- The variables of the unpacking loop once it has met `n` bits (42_unpack.md R133): `r` and `c` name the cell of
the next one. -/
def unpackLoopAfter (B : Nat → Byte) (w n : Nat) : UnpackLoop where
  r := n / w
  c := n % w
  out := (List.range n).map (serialWrite B w)

/-- The cell after the last column of a row is the first of the next row. -/
theorem succ_div_mod_of_row_end {n w : Nat} (h : n % w + 1 = w) : (n + 1) / w = n / w + 1 ∧ (n + 1) % w = 0 := by
  have hnext : n + 1 = (n / w + 1) * w := by
    rw [Nat.succ_mul]
    have := Nat.div_add_mod' n w
    omega
  rw [hnext]
  exact ⟨Nat.mul_div_cancel _ (by omega), Nat.mul_mod_left _ _⟩

/-- The cell after any other is the next one of its row. -/
theorem succ_div_mod_of_in_row {n w : Nat} (h : n % w + 1 < w) :
    (n + 1) / w = n / w ∧ (n + 1) % w = n % w + 1 := by
  have hnext : n + 1 = n / w * w + (n % w + 1) := by
    have := Nat.div_add_mod' n w
    omega
  rw [hnext]
  exact ⟨flat_div h, flat_mod h⟩

theorem unpackEmit_of_row_end {w : Nat} {l : UnpackLoop} (h : l.c + 1 = w) (b : Bit) :
    unpackEmit w l b = { r := l.r + 1, c := 0, out := l.out ++ [(l.r, l.c, b)] } := if_pos h

theorem unpackEmit_of_in_row {w : Nat} {l : UnpackLoop} (h : l.c + 1 ≠ w) (b : Bit) :
    unpackEmit w l b = { r := l.r, c := l.c + 1, out := l.out ++ [(l.r, l.c, b)] } := if_neg h

/-- One iteration takes the variables after `n` bits to those after the next one. -/
theorem unpackEmit_unpackLoopAfter (B : Nat → Byte) {w : Nat} (hw : 0 < w) (n : Nat) :
    unpackEmit w (unpackLoopAfter B w n) (byteBit (B (n / 8)) (n % 8)) = unpackLoopAfter B w (n + 1) := by
  have hout : (List.range (n + 1)).map (serialWrite B w) =
      (List.range n).map (serialWrite B w) ++ [serialWrite B w n] := by simp [List.range_succ]
  by_cases hend : n % w + 1 = w
  · obtain ⟨hdiv, hmod⟩ := succ_div_mod_of_row_end hend
    rw [unpackEmit_of_row_end hend, unpackLoopAfter, unpackLoopAfter, hdiv, hmod, hout]
    rfl
  · have hin : n % w + 1 < w := Nat.lt_of_le_of_ne (Nat.mod_lt n hw) hend
    obtain ⟨hdiv, hmod⟩ := succ_div_mod_of_in_row hin
    rw [unpackEmit_of_in_row hend, unpackLoopAfter, unpackLoopAfter, hdiv, hmod, hout]
    rfl

/-- The loop over the bytes and their bits is a loop over the flat index. -/
theorem foldl_bytes_bits {σ : Type} (f : σ → Nat → Nat → σ) (L : Nat) (a : σ) :
    (List.range L).foldl (fun a k => (List.range 8).foldl (fun a i => f a k i) a) a =
      (List.range (L * 8)).foldl (fun a n => f a (n / 8) (n % 8)) a := by
  have hflat := range_mul_map L 8 Prod.mk
  calc (List.range L).foldl (fun a k => (List.range 8).foldl (fun a i => f a k i) a) a
      = ((List.range L).flatMap fun k => (List.range 8).map (Prod.mk k)).foldl (fun a e => f a e.1 e.2) a := by
        simp only [List.foldl_flatMap, List.foldl_map]
    _ = (List.range (L * 8)).foldl (fun a n => f a (n / 8) (n % 8)) a := by
        rw [← hflat, List.foldl_map]

/-- After `m` bits, of which those from `N` on are padding, the loop has met the bits below `N` among them. -/
theorem foldl_unpackEmit (B : Nat → Byte) {w : Nat} (hw : 0 < w) (N m : Nat) :
    (List.range m).foldl
      (fun l n => if 8 * (n / 8) + n % 8 < N then unpackEmit w l (byteBit (B (n / 8)) (n % 8)) else l)
      { r := 0, c := 0, out := [] } = unpackLoopAfter B w (min m N) := by
  induction m with
  | zero => simp [unpackLoopAfter]
  | succ m ih =>
    rw [List.range_succ, List.foldl_append, ih, List.foldl_cons, List.foldl_nil, Nat.div_add_mod]
    by_cases hm : m < N
    · have hmin : min m N = m := Nat.min_eq_left hm.le
      have hmin' : min (m + 1) N = m + 1 := Nat.min_eq_left hm
      rw [if_pos hm, hmin, hmin', unpackEmit_unpackLoopAfter B hw]
    · have hmin : min m N = min (m + 1) N := by omega
      rw [if_neg hm, hmin]

/-- Settles O35: after every bit the loop has made the writes of the flat indices met so far, and the bits of
`ceil8(w*h)` bytes are enough. -/
theorem serialUnpackAgrees : Obligations.SerialUnpackAgrees := by
  intro B w h hw
  have hall : min (ceil8 (w * h) * 8) (w * h) = w * h := by
    unfold ceil8
    omega
  rw [unpackSerial, foldl_bytes_bits fun l k i => if 8 * k + i < w * h then unpackEmit w l (byteBit (B k) i) else l,
    foldl_unpackEmit B hw, hall]
  rfl

/-! ### The other bit order -/

/-- The flat sequence of `unpack(B, w, h)`, in terms of the bytes alone (42_unpack.md R125). -/
theorem flatten_unpack_getD {B : List Byte} {w h n : Nat} (hl : ceil8 (w * h) ≤ B.length) (hn : n < w * h) :
    (flatten (unpack B w h)).getD n 0 = byteBit (B.getD (n / 8) 0) (n % 8) := by
  have hr : n / w < h := Nat.div_lt_of_lt_mul hn
  have hc : n % w < w := Nat.mod_lt _ (Nat.pos_of_lt_mul_right hn)
  calc (flatten (unpack B w h)).getD n 0
      = (unpack B w h).cell (n / w) (n % w) := by
        rw [flatten_getD]
        exact if_pos (Nat.mul_comm w h ▸ hn)
    _ = byteBit (B.getD (n / 8) 0) (n % 8) := by rw [unpack_cell B hr hc hl, Nat.div_add_mod']

/-- Settles O47: both sides are bits of byte `n div 8`, and the index on the right is that of bit `7 - n mod 8`. -/
theorem otherBitOrderReversesGroups : Obligations.OtherBitOrderReversesGroups := by
  intro B w h _ _ hl n hgroup
  have hk : n / 8 < B.length := by
    simp only [ceil8] at hl
    omega
  have hdiv : (8 * (n / 8) + (7 - n % 8)) / 8 = n / 8 := by omega
  have hmod : (8 * (n / 8) + (7 - n % 8)) % 8 = 7 - n % 8 := by omega
  rw [flatten_unpack_getD (by rwa [List.length_map]) (by omega), flatten_unpack_getD hl (by omega), hdiv, hmod,
    List.getD_eq_getElem _ _ (by rwa [List.length_map]), List.getElem_map, byteBit_joinBits _ (by omega),
    List.getD_eq_getElem _ _ hk]

end Sys2Proof.Machine
end

section
/-! PROOF. The laws of the two functions: bytes beyond the packed length, the bytes again after a round trip, other
shapes, and which byte lists are packings (43_laws.md R142, R143, R146, R147). -/

namespace Sys2Proof.Machine

/-! ### The flat bits of the bytes -/

/-- Two bytes with the same bits are the same byte. -/
theorem byte_eq_of_byteBit {u v : Byte} (h : ∀ i, i < 8 → byteBit u i = byteBit v i) : u = v :=
  (joinBits_byteBit u).symm.trans ((joinBits_congr h).trans (joinBits_byteBit v))

theorem flatBits_append (B T : List Byte) : flatBits (B ++ T) = flatBits B ++ flatBits T :=
  List.flatMap_append

/-- Enough bytes hold a bit for every cell. -/
theorem le_flatBits_length {B : List Byte} {n : Nat} (hl : ceil8 n ≤ B.length) : n ≤ (flatBits B).length := by
  rw [flatBits_length]
  unfold ceil8 at hl
  omega

/-- `unpack` does not see the bytes after the first `ceil8(w*h)` (42_unpack.md R131). -/
theorem unpack_append {B : List Byte} {w h : Nat} (hl : ceil8 (w * h) ≤ B.length) (T : List Byte) :
    unpack (B ++ T) w h = unpack B w h := by
  rw [unpack, unpack, flatBits_append, List.take_append_of_le_length (le_flatBits_length hl)]

/-- Flattening undoes the reshaping of `unpack`, whatever the shape (42_unpack.md R125). -/
theorem flatten_unpack {B : List Byte} {w h : Nat} (hl : ceil8 (w * h) ≤ B.length) :
    flatten (unpack B w h) = (flatBits B).take (w * h) := by
  have hbits : w * h ≤ (flatBits B).length := le_flatBits_length hl
  have hlen : (flatten (unpack B w h)).length = w * h := (flatten_length _).trans (Nat.mul_comm h w)
  apply List.ext_getElem
  · rw [hlen, List.length_take_of_le hbits]
  · intro n hn hn'
    have hlt : n < w * h := hlen ▸ hn
    calc (flatten (unpack B w h))[n]
        = (flatten (unpack B w h)).getD n 0 := (List.getD_eq_getElem _ _ hn).symm
      _ = byteBit (B.getD (n / 8) 0) (n % 8) := flatten_unpack_getD hl hlt
      _ = (flatBits B).getD n 0 := (flatBits_getD B n (by rw [← flatBits_length]; omega)).symm
      _ = (flatBits B)[n] := List.getD_eq_getElem _ _ (by omega)
      _ = ((flatBits B).take (w * h))[n] := List.getElem_take.symm

/-- Settles O43: both flat sequences are the first flat bits of the one byte list, as many as the shape has cells. -/
theorem otherShapeSameFlatBits : Obligations.OtherShapeSameFlatBits := by
  refine fun B w h w' h' _ _ _ _ hl => ⟨fun heq => ?same, fun hlt => ?smaller⟩
  case same => rw [flatten_unpack hl, flatten_unpack (heq ▸ hl), heq]
  case smaller =>
    have hl' : ceil8 (w' * h') ≤ B.length := by
      unfold ceil8 at hl ⊢
      omega
    rw [flatten_unpack hl, flatten_unpack hl']
    exact List.take_prefix_take_left hlt.le

/-! ### The bytes again after a round trip -/

/-- A bit of `pack(unpack(B, w, h))` is that of `B` where it stands for a cell, and 0 in the padding
(43_laws.md R143). -/
theorem byteBit_pack_unpack {B : List Byte} {w h k i : Nat} (hl : ceil8 (w * h) ≤ B.length)
    (hk : k < ceil8 (w * h)) (hi : i < 8) :
    byteBit ((pack (unpack B w h)).getD k 0) i = if 8 * k + i < w * h then byteBit (B.getD k 0) i else 0 := by
  have hcells : (unpack B w h).height * (unpack B w h).width = w * h := Nat.mul_comm h w
  rw [byteBit_pack_getD _ (hcells.symm ▸ hk) hi, ← flatten_getD]
  by_cases hlt : 8 * k + i < w * h
  · have hdiv : (8 * k + i) / 8 = k := by omega
    have hmod : (8 * k + i) % 8 = i := by omega
    rw [if_pos hlt, flatten_unpack_getD hl hlt, hdiv, hmod]
  · rw [if_neg hlt, flatten_getD, hcells, if_neg hlt]

/-- A byte without padding comes back whole. -/
theorem pack_unpack_getD_of_full {B : List Byte} {w h k : Nat} (hl : ceil8 (w * h) ≤ B.length)
    (hk : 8 * k + 8 ≤ w * h) : (pack (unpack B w h)).getD k 0 = B.getD k 0 := by
  refine byte_eq_of_byteBit fun i hi => ?_
  have hlt : k < ceil8 (w * h) := by
    unfold ceil8
    omega
  rw [byteBit_pack_unpack hl hlt hi, if_pos (by omega)]

/-- Settles O40: the bytes before the last have no padding, nor has the last one when `w*h` is a multiple of 8; else
its bits from `w*h mod 8` on are padding. -/
theorem packAfterUnpackClearsPadding : Obligations.PackAfterUnpackClearsPadding := by
  intro B w h hw hh hl
  have hpos : 0 < w * h := Nat.mul_pos hw hh
  refine ⟨?length, fun k hk => ?before, fun hwhole => ?whole, fun hpart i hi => ?padded⟩
  case length => exact (pack_length _).trans (congrArg ceil8 (Nat.mul_comm h w))
  case before =>
    refine pack_unpack_getD_of_full hl ?_
    unfold ceil8 at hk
    omega
  case whole =>
    have hbytes := (mod_eight_eq_zero_iff (w * h)).mp hwhole
    exact pack_unpack_getD_of_full hl (by omega)
  case padded =>
    obtain ⟨hlast, hceil⟩ := ceil8_last hpart
    rw [byteBit_pack_unpack hl (Nat.sub_one_lt_of_lt hceil) hi]
    exact if_congr (by omega) rfl rfl

/-! ### Which byte lists are packings -/

theorem BinaryGrid.Same.symm {G H : BinaryGrid} (h : G.Same H) : H.Same G := by
  obtain ⟨hheight, hwidth, hcell⟩ := h
  exact ⟨hheight.symm, hwidth.symm, fun r c hr hc => (hcell r c (hheight ▸ hr) (hwidth ▸ hc)).symm⟩

/-- At one shape `unpack` recovers the grid from its packing, so the packing determines the grid. -/
theorem same_of_pack_eq {G H : BinaryGrid} (hheight : G.height = H.height) (hwidth : G.width = H.width)
    (hpack : pack G = pack H) : G.Same H := by
  have hG := unpack_pack_same G
  rw [hpack, hheight, hwidth] at hG
  exact hG.symm.trans (unpack_pack_same H)

/-- The grid of shape `(h, w)` with the cells of a table. -/
def tableGrid (h w : Nat) (table : Fin h × Fin w → Bit) : BinaryGrid where
  height := h
  width := w
  cell := fun r c => if hin : r < h ∧ c < w then table (⟨r, hin.1⟩, ⟨c, hin.2⟩) else 0

theorem tableGrid_cell {h w : Nat} (table : Fin h × Fin w → Bit) (r : Fin h) (c : Fin w) :
    (tableGrid h w table).cell r c = table (r, c) := dif_pos ⟨r.isLt, c.isLt⟩

/-- Every grid is that of the table of its cells. -/
theorem tableGrid_same (h w : Nat) (f : Nat → Nat → Bit) :
    (tableGrid h w fun e => f e.1 e.2).Same ⟨h, w, f⟩ :=
  ⟨rfl, rfl, fun r c hr hc => tableGrid_cell (fun e => f e.1 e.2) ⟨r, hr⟩ ⟨c, hc⟩⟩

/-- The packings of the grids of one shape are those of its tables. -/
theorem packings_eq_range (h w : Nat) :
    { B : List Byte | ∃ f, B = pack ⟨h, w, f⟩ } = Set.range fun table => pack (tableGrid h w table) := by
  ext B
  constructor
  · rintro ⟨f, rfl⟩
    exact ⟨fun e => f e.1 e.2, pack_eq_of_same (tableGrid_same h w f)⟩
  · rintro ⟨table, rfl⟩
    exact ⟨(tableGrid h w table).cell, rfl⟩

theorem pack_tableGrid_injective (h w : Nat) :
    Function.Injective fun table : Fin h × Fin w → Bit => pack (tableGrid h w table) := by
  intro table table' hpack
  obtain ⟨-, -, hcell⟩ := same_of_pack_eq (G := tableGrid h w table) (H := tableGrid h w table') rfl rfl hpack
  funext ⟨r, c⟩
  rw [← tableGrid_cell table, ← tableGrid_cell table']
  exact hcell r c r.isLt c.isLt

theorem card_bit : Nat.card Bit = 2 := by
  rw [Nat.card_eq_fintype_card]
  rfl

theorem card_tables (h w : Nat) : Nat.card (Fin h × Fin w → Bit) = 2 ^ (h * w) := by
  rw [Nat.card_fun, card_bit, Nat.card_prod, Nat.card_fin, Nat.card_fin]

/-- Settles O44: `unpack` recovers the grid; the packings are as many as the tables of `h*w` cells; and one row of two
cells has the flat sequence of two rows of one. -/
theorem packIsInjectiveAtOneShape : Obligations.PackIsInjectiveAtOneShape := by
  refine ⟨fun G H _ _ hheight hwidth => same_of_pack_eq hheight hwidth, fun h w _ _ => ?count,
    ⟨1, 2, fun _ _ => 1⟩, ⟨2, 1, fun _ _ => 1⟩, Nat.one_pos, Nat.two_pos, Nat.two_pos, Nat.one_pos,
    Nat.succ_ne_self 1, ?across⟩
  case count => rw [packings_eq_range, Set.ncard_range_of_injective (pack_tableGrid_injective h w), card_tables]
  case across => exact packForgetsShape.2 _ _ rfl

end Sys2Proof.Machine
end

section
/-! PROOF. The laws of the two commands: the length PACK leaves, the bytes UNPACK does not read, what an outcome
depends on, and what a failure leaves (43_laws.md R141, R142, R144, R148). -/

namespace Sys2Proof.Machine

variable {p : Config.Params}

/-! ### Length and extra bytes -/

/-- Settles O38: BLEN takes the packed length, which fits it, and the dimensions stay. -/
theorem packedLengthIsCeil : Obligations.PackedLengthIsCeil := by
  refine ⟨pack_length, fun s hb hop hw hh => ?_⟩
  have hd : s.dimsOk = true := s.dimsOk_iff.mpr ⟨hw, hh⟩
  have hblen : (packResult s).blen.toNat = s.packedLen := s.packedLen_toNat params_valid
  refine ⟨_, exec_pack_of_dimsOk hb hop hd, ?_⟩
  rw [hblen]
  exact ⟨(State.packedLen_eq hd).symm, ceil8_pos (State.cells_pos hd), s.packedLen_le⟩

/-- The bit of a cell lies in one of the first `L` bytes. -/
theorem State.div_eight_lt_packedLen {s : State p} {n : Nat} (hn : n < s.cells) : n / 8 < s.packedLen := by
  unfold State.packedLen ceil8
  omega

/-- Settles O39: the function truncates the flat bits, and the command reads the first `L` bytes alone. -/
theorem extraBytesAreIgnored : Obligations.ExtraBytesAreIgnored := by
  refine ⟨fun G T _ _ => ?function, fun s s' hb hb' hop hop' hd hw hh hl hl' hbytes => ?command⟩
  case function =>
    rw [unpack_append (by rw [pack_length, Nat.mul_comm])]
    exact unpack_pack_same G
  case command =>
    exact unpackIgnoresPaddingAndExtraBytes s s' hb hb' hop hop' hd hw hh hl hl' fun n hn =>
      congrArg (byteBit · (n % 8)) (hbytes _ (State.div_eight_lt_packedLen hn))

/-! ### What an outcome depends on -/

/-- What a command's outcome is (43_laws.md R144): ERR, BLEN, BUSY and what the cells and bytes there are read as. -/
def State.SameOutcome (t t' : State p) : Prop :=
  t'.err = t.err ∧ t'.blen = t.blen ∧ t'.busy = t.busy ∧
    (∀ r c, r < p.gdim → c < p.gdim → t'.gmRead r c = t.gmRead r c) ∧
    ∀ k, k < p.nbyte → t'.bmRead k = t.bmRead k

section
variable {s s' : State p} (hw : s'.width = s.width) (hh : s'.height = s.height)
include hw hh

theorem State.dimsOk_congr : s'.dimsOk = s.dimsOk := by
  rw [State.dimsOk, State.dimsOk, State.w, State.w, State.h, State.h, hw, hh]

theorem State.cells_congr : s'.cells = s.cells := by
  rw [State.cells, State.cells, State.cols_congr hw, State.rows_congr hh]

theorem State.packedLen_congr : s'.packedLen = s.packedLen := congrArg ceil8 (State.cells_congr hw hh)

end

section
variable {s s' : State p} (hw : s'.width = s.width) (hh : s'.height = s.height)
  (hcells : ∀ r c, r < p.gdim → c < p.gdim → s'.gmRead r c = s.gmRead r c)
  (hbytes : ∀ k, k < p.nbyte → s'.bmRead k = s.bmRead k)
include hcells hbytes

theorem sameOutcome_fail (hlen : s'.blen = s.blen) (e : ErrorCode) : (s.fail e).SameOutcome (s'.fail e) :=
  ⟨rfl, hlen, rfl, hcells, hbytes⟩

include hw hh

omit hbytes in
/-- PACK reads cells of the corner, all of which there are. -/
theorem packByte_congr (k : Nat) : packByte s' k = packByte s k := by
  refine joinBits_congr fun i _ => ?_
  rw [packBit, packBit, State.cells_congr hw hh, State.cols_congr hw]
  by_cases hn : 8 * k + i < s.cells
  · obtain ⟨hr, hc⟩ := State.corner_of_lt hn
    rw [if_pos hn, if_pos hn, hcells _ _ (hr.trans s.rows_lt) (hc.trans s.cols_lt)]
  · rw [if_neg hn, if_neg hn]

theorem sameOutcome_packResult : (packResult s).SameOutcome (packResult s') := by
  have hL : s'.packedLen = s.packedLen := State.packedLen_congr hw hh
  refine ⟨rfl, congrArg (BitVec.ofNat p.lenw) hL, rfl, hcells, fun k hk => ?_⟩
  rw [packResult_bmRead, packResult_bmRead, hL, packByte_congr hw hh hcells, hbytes k hk]

/-- UNPACK writes the corner with bits of bytes below `L`, and leaves every other cell. -/
theorem sameOutcome_unpackResult (hp : p.valid = true) (hlen : s'.blen = s.blen) :
    (unpackResult s).SameOutcome (unpackResult s') := by
  have hbits : ∀ n, n < s.cells → unpackBit s' n = unpackBit s n := fun n hn =>
    congrArg (byteBit · (n % 8)) (hbytes _ ((State.div_eight_lt_packedLen hn).trans (s.packedLen_lt hp)))
  have hrows : s'.rows = s.rows := State.rows_congr hh
  have hcols : s'.cols = s.cols := State.cols_congr hw
  refine ⟨rfl, hlen, rfl, fun r c hr hc => ?_, hbytes⟩
  by_cases hcorner : r < s.rows ∧ c < s.cols
  · obtain ⟨-, -, hcell⟩ := gridOf_unpackResult_same_of_bits hw hh hbits
    exact hcell r c (hcorner.1.trans_eq hrows.symm) (hcorner.2.trans_eq hcols.symm)
  · have houtside : s.rows ≤ r ∨ s.cols ≤ c := by omega
    rw [unpackResult_gmRead_outside s' hc (hrows.symm ▸ hcols.symm ▸ houtside),
      unpackResult_gmRead_outside s hc houtside, hcells r c hr hc]

end

/-- Settles O41: the two states pass and fail the same checks, and each outcome is made of what they agree on. -/
theorem commandOutcomeDependsOnOperandsOnly : Obligations.CommandOutcomeDependsOnOperandsOnly := by
  intro s s' hb hb' hop' hw hh hlen hcells hbytes
  have hdims : s'.dimsOk = s.dimsOk := State.dimsOk_congr hw hh
  have hL : s'.packedLen = s.packedLen := State.packedLen_congr hw hh
  have hl : s'.len = s.len := congrArg BitVec.toNat hlen
  cases hd : s.dimsOk with
  | false =>
    exact ⟨_, _, exec_command_of_not_dimsOk hb hd, hop' ▸ exec_command_of_not_dimsOk hb' (hdims.trans hd),
      sameOutcome_fail (p := Config.params) hcells hbytes hlen _⟩
  | true =>
    have hd' : s'.dimsOk = true := hdims.trans hd
    cases hop : s.op with
    | pack =>
      exact ⟨_, _, exec_pack_of_dimsOk hb hop hd, exec_pack_of_dimsOk hb' (hop'.trans hop) hd',
        sameOutcome_packResult hw hh hcells hbytes⟩
    | unpack =>
      obtain hshort | henough := Nat.lt_or_ge s.len s.packedLen
      · exact ⟨_, _, exec_unpack_of_short hb hop hd hshort,
          exec_unpack_of_short hb' (hop'.trans hop) hd' (by omega),
          sameOutcome_fail (p := Config.params) hcells hbytes hlen _⟩
      · exact ⟨_, _, exec_unpack_of_enough hb hop hd henough,
          exec_unpack_of_enough hb' (hop'.trans hop) hd' (by omega),
          sameOutcome_unpackResult hw hh hcells hbytes params_valid hlen⟩

/-! ### What a failure leaves -/

/-- Settles O45: a start and a failure write OP, ERR and BUSY alone. -/
theorem failureChangesNothing : Obligations.FailureChangesNothing := by
  intro s t c hb hrun herr
  rw [State.runsCommand_iff hb] at hrun
  obtain ⟨e, rfl⟩ := eq_fail_of_command_err (s := s.started c) rfl hrun herr
  exact ⟨rfl, State.gmRead_congr rfl rfl, State.bmRead_congr rfl rfl⟩

end Sys2Proof.Machine
end

section
/-! PROOF. Every step has a successor, and an EXEC step reports the two errors exactly on their causes
(60_exceptions.md R161, R162, R164). -/

namespace Sys2Proof.Machine

/-! ### Every step has a successor -/

/-- No arm faults or refuses, EXEC that is not enabled included (60_exceptions.md R164). -/
theorem exec_has_successor (i : Instr) (s : State) : ∃ t, exec i s = .next t := by
  cases i <;> exact ⟨_, rfl⟩

theorem step_has_successor (s : State) : ∃ t, step s = .next t := by
  cases hf : fetch s with
  | run i u => exact step_of_run hf ▸ exec_has_successor i u
  | done t => exact ⟨t, step_of_done hf⟩

/-! ### What an EXEC step reports -/

section
variable {s t : State} (hb : s.busy = true) (h : exec (commandInstr s.op) s = .next t)
include hb h

/-- The report of the pending command, each with its cause; the dimensions are checked first (42_unpack.md R128). -/
theorem exec_command_report :
    (s.dimsOk = false ∧ t.err = .dimensionMismatch) ∨
    (s.dimsOk = true ∧ (s.op = .unpack ∧ s.len < s.packedLen) ∧ t.err = .insufficientData) ∨
    (s.dimsOk = true ∧ ¬(s.op = .unpack ∧ s.len < s.packedLen) ∧ t.err = .none) := by
  cases hd : s.dimsOk with
  | false =>
    obtain rfl := Host.Outcome.next.inj ((exec_command_of_not_dimsOk hb hd).symm.trans h)
    exact .inl ⟨rfl, rfl⟩
  | true =>
    cases hop : s.op with
    | pack =>
      rw [hop] at h
      obtain rfl := Host.Outcome.next.inj ((exec_pack_of_dimsOk hb hop hd).symm.trans h)
      exact .inr (.inr ⟨rfl, by simp, rfl⟩)
    | unpack =>
      rw [hop] at h
      obtain hl | hl := Nat.lt_or_ge s.len s.packedLen
      · obtain rfl := Host.Outcome.next.inj ((exec_unpack_of_short hb hop hd hl).symm.trans h)
        exact .inr (.inl ⟨rfl, ⟨rfl, hl⟩, rfl⟩)
      · obtain rfl := Host.Outcome.next.inj ((exec_unpack_of_enough hb hop hd hl).symm.trans h)
        exact .inr (.inr ⟨rfl, fun ⟨_, hshort⟩ => Nat.not_lt.mpr hl hshort, rfl⟩)

/-- `ERR` is written by every EXEC step, and code 3 is not among its values (60_exceptions.md R163). -/
theorem exec_command_err_cases : t.err = .none ∨ t.err = .insufficientData ∨ t.err = .dimensionMismatch := by
  obtain ⟨-, he⟩ | ⟨-, -, he⟩ | ⟨-, -, he⟩ := exec_command_report hb h
  · exact .inr (.inr he)
  · exact .inr (.inl he)
  · exact .inl he

/-- The cause of DimensionMismatchError (60_exceptions.md R162). -/
theorem exec_command_dimensionMismatch_iff :
    t.err = .dimensionMismatch ↔ s.width.toInt ≤ 0 ∨ s.height.toInt ≤ 0 := by
  refine Iff.trans ?_ s.dimsOk_eq_false
  obtain ⟨hd, he⟩ | ⟨hd, -, he⟩ | ⟨hd, -, he⟩ := exec_command_report hb h <;> simp [hd, he]

/-- The cause of InsufficientDataError (60_exceptions.md R161): BLEN counts only once both dimensions are positive
(42_unpack.md R128). -/
theorem exec_command_insufficientData_iff :
    t.err = .insufficientData ↔
      s.op = .unpack ∧ 0 < s.width.toInt ∧ 0 < s.height.toInt ∧
        s.blen.toNat < ceil8 (s.width.toInt * s.height.toInt).toNat := by
  have hcause : t.err = .insufficientData ↔ s.dimsOk = true ∧ s.op = .unpack ∧ s.len < s.packedLen := by
    obtain ⟨hd, he⟩ | ⟨hd, hcause, he⟩ | ⟨hd, hnot, he⟩ := exec_command_report hb h
    · simp [hd, he]
    · simp [hd, hcause, he]
    · exact ⟨fun herr => by simp [he] at herr, fun hcause => absurd hcause.2 hnot⟩
  rw [hcause]
  constructor
  · rintro ⟨hd, hop, hl⟩
    obtain ⟨hw, hh⟩ := s.dimsOk_iff.mp hd
    exact ⟨hop, hw, hh, (State.packedLen_eq hd).symm ▸ hl⟩
  · rintro ⟨hop, hw, hh, hl⟩
    have hd : s.dimsOk = true := s.dimsOk_iff.mpr ⟨hw, hh⟩
    exact ⟨hd, hop, State.packedLen_eq hd ▸ hl⟩

end

/-- Settles O10: an EXEC step is the pending command's instruction, and the event it uses up is no part of a
cause. -/
theorem noOtherFailure : Obligations.NoOtherFailure := by
  refine ⟨exec_has_successor, step_has_successor, fun s t hexec h => ?_⟩
  have hb : s.busy = true := State.busy_of_takesExec hexec
  have hcommand := step_of_takesExec hexec ▸ h
  exact ⟨idle_after_exec h hexec,
    exec_command_err_cases (s := { s with inputs := s.inputs.tail }) hb hcommand,
    exec_command_dimensionMismatch_iff (s := { s with inputs := s.inputs.tail }) hb hcommand,
    exec_command_insufficientData_iff (s := { s with inputs := s.inputs.tail }) hb hcommand⟩

end Sys2Proof.Machine
end

section
/-! PROOF. What the reset event clears (70_reset_and_hazards.md R180 to R182), and that every run ends idle
(R190, R192). -/

namespace Sys2Proof.Machine

variable {p : Config.Params}

/-! ### The reset event -/

/-- No cell of GM survives a reset: each reads as the new draw (R182). -/
@[simp] theorem State.resetEvent_gmRead (s : State p) (r c : Nat) :
    s.resetEvent.gmRead r c = Config.gmDraw (s.epoch + 1) (gmKey r c p) := rfl

/-- No byte of BM survives a reset: each reads as the new draw (R182). -/
@[simp] theorem State.resetEvent_bmRead (s : State p) (k : Nat) :
    s.resetEvent.bmRead k = Config.bmDraw (s.epoch + 1) k := rfl

@[simp] theorem State.resetEvent_statusWord (s : State p) : s.resetEvent.statusWord = 0 := by
  simp [State.statusWord, ErrorCode.code, Command.bit]

/-- Settles O11: the step is the reset event on the state without the event it uses up. -/
theorem resetEventClears : Obligations.ResetEventClears := fun s rest hin =>
  ⟨State.resetEvent { s with inputs := rest }, step_of_done (fetch_reset hin), rfl, rfl, rfl, rfl, rfl, rfl,
    State.resetEvent_statusWord _, State.resetEvent_gmRead _, State.resetEvent_bmRead _, rfl, rfl, rfl⟩

/-! ### The events a step uses up -/

/-- A host write leaves the events to come alone if its effect does. -/
theorem State.hostWrite_inputs {s : State p} {f : State p → State p} (hf : (f s).inputs = s.inputs) :
    (s.hostWrite f).inputs = s.inputs := by
  unfold State.hostWrite; split
  · rfl
  · exact hf

/-- No instruction adds or drops an event: what the agents do next is not the block's to say (00_scope.md R5). -/
theorem exec_inputs {i : Instr} {s t : State} (h : exec i s = .next t) : t.inputs = s.inputs := by
  have hcommand (c : Command) (hc : exec (commandInstr c) s = .next t) : t.inputs = s.inputs := by
    obtain ⟨u, hu, -, hinputs, -⟩ := exec_command_port s c
    exact Host.Outcome.next.inj (hu.symm.trans hc) ▸ hinputs
  cases i with
  | pack => exact hcommand .pack h
  | unpack => exact hcommand .unpack h
  | rdreg n =>
    obtain rfl := Host.Outcome.next.inj h
    exact s.readRegister_inputs n
  | wrreg n v =>
    obtain rfl := Host.Outcome.next.inj h
    exact State.hostWrite_inputs (s.writeRegister_inputs n _)
  | rdg | rdb =>
    obtain rfl := Host.Outcome.next.inj h
    split
    · exact s.respondIdle_inputs _
    · rfl
  | wrg | wrb =>
    obtain rfl := Host.Outcome.next.inj h
    split
    · exact State.hostWrite_inputs rfl
    · rfl
  | rdrsv | wrrsv =>
    obtain rfl := Host.Outcome.next.inj h
    rfl

/-- Every step uses up the first event, if there is one. -/
theorem step_inputs {s t : State} (h : step s = .next t) : t.inputs = s.inputs.tail := by
  obtain ⟨req, rest, hin, hreq⟩ | ⟨-, hexec⟩ | ⟨rest, hin, rfl⟩ | ⟨-, -, rfl⟩ := step_cases h
  · rw [exec_inputs hreq, hin, List.tail_cons]
  · exact exec_inputs hexec
  · rw [State.resetEvent_inputs, hin, List.tail_cons]
  · rfl

/-! ### The end of a run -/

/-- A run of any length goes through, and its steps use up one event each. -/
theorem State.runsTo_drops_inputs (s : State) (k : Nat) :
    ∃ t, s.runsTo k t ∧ t.inputs = s.inputs.drop k := by
  induction k generalizing s with
  | zero => exact ⟨s, (State.runsTo_zero s s).mpr rfl, rfl⟩
  | succ k ih =>
    obtain ⟨u, hstep⟩ := step_has_successor s
    obtain ⟨t, hrun, hin⟩ := ih u
    refine ⟨t, (State.runsTo_succ s t k).mpr ⟨u, hstep, hrun⟩, ?_⟩
    rw [hin, step_inputs hstep, List.drop_tail]

/-- Once the events are used up, one step leaves the block idle: a pending command is owed its EXEC (R190, log 3),
and while idle nothing happens (R192, log 4). -/
theorem idle_after_last_step {s t : State} (hnil : s.inputs = []) (h : step s = .next t) : t.busy = false := by
  cases hb : s.busy with
  | true => exact idle_after_exec h (by simp [State.takesExec, hb, hnil])
  | false =>
    obtain rfl := Host.Outcome.next.inj ((((stepRunsPendingCommand s).2 hb).1 hnil).symm.trans h)
    exact hb

/-- Settles O58: as many steps as there are events use them all up, and the one step more performs a pending
command. -/
theorem runsEndIdle : Obligations.RunsEndIdle := by
  intro s
  obtain ⟨u, hrun, hdrop⟩ := s.runsTo_drops_inputs s.inputs.length
  have hnil : u.inputs = [] := hdrop.trans List.drop_length
  obtain ⟨t, hlast⟩ := step_has_successor u
  refine ⟨t, State.runsTo_add hrun ((State.runsTo_one u t).mpr hlast), idle_after_last_step hnil hlast, ?_⟩
  rw [step_inputs hlast, hnil, List.tail_nil]

end Sys2Proof.Machine
end
